-- ==== Sys2Proof/Word.lean ====
section
/-! DEFINITION. The widths of the machine (00_scope.md R6): the 16-bit word, the console byte, the register number. -/

namespace Sys2Proof

/-- A 16-bit word: a register, an address, a memory word, an instruction (R6, R30, R50). -/
abbrev Word := BitVec 16

/-- One console byte (R21, R150). -/
abbrev Byte := BitVec 8

/-- A register number: field value i selects Ri (R10). -/
abbrev Reg := Fin 8

end Sys2Proof
end

