-- ==== Sys2Proof/Syntax.lean ====
section
/-! DEFINITION. The instructions: one constructor per row of spec/opcode_table.json (25 rows). The bits that
30_encoding.md R57 says no rule reads are not part of an instruction. -/

namespace Sys2Proof

/-- The instructions, in the table's order. Fields are the operands of 30_encoding.md R51, at their own widths. -/
inductive Instr where
  /-- BR (format BRF): tests N, Z, P; PCoffset9. -/
  | br (n z p : Bool) (offset9 : BitVec 9)
  /-- ADD, register mode (format OPR). -/
  | addReg (dr sr1 sr2 : Reg)
  /-- ADD, immediate mode (format OPI). -/
  | addImm (dr sr1 : Reg) (imm5 : BitVec 5)
  /-- LD (format PCR). -/
  | ld (dr : Reg) (offset9 : BitVec 9)
  /-- ST (format PCR). -/
  | st (sr : Reg) (offset9 : BitVec 9)
  /-- JSR (format JL). -/
  | jsr (offset11 : BitVec 11)
  /-- JSRR (format JLR). -/
  | jsrr (base : Reg)
  /-- AND, register mode (format OPR). -/
  | andReg (dr sr1 sr2 : Reg)
  /-- AND, immediate mode (format OPI). -/
  | andImm (dr sr1 : Reg) (imm5 : BitVec 5)
  /-- LDR (format BOF). -/
  | ldr (dr base : Reg) (offset6 : BitVec 6)
  /-- STR (format BOF). -/
  | str (sr base : Reg) (offset6 : BitVec 6)
  /-- The reserved opcode 0x8 (format RSV). -/
  | reserved8
  /-- NOT (format UN). -/
  | not (dr sr : Reg)
  /-- LDI (format PCR). -/
  | ldi (dr : Reg) (offset9 : BitVec 9)
  /-- STI (format PCR). -/
  | sti (sr : Reg) (offset9 : BitVec 9)
  /-- JMP; `RET` is `JMP R7` (format JR). -/
  | jmp (base : Reg)
  /-- The reserved opcode 0xD (format RSV). -/
  | reservedD
  /-- LEA (format PCR). -/
  | lea (dr : Reg) (offset9 : BitVec 9)
  /-- TRAP with a vector that none of the six rows below names (format TV). -/
  | trap (vector : BitVec 8)
  /-- TRAP 0x20. -/
  | trapGetc
  /-- TRAP 0x21. -/
  | trapOut
  /-- TRAP 0x22. -/
  | trapPuts
  /-- TRAP 0x23. -/
  | trapIn
  /-- TRAP 0x24. -/
  | trapPutsp
  /-- TRAP 0x25. -/
  | trapHalt
  deriving DecidableEq, Repr

end Sys2Proof
end

