-- ==== Sys2Proof/WellFormed.lean ====
section
/-! DEFINITION. Which instructions are the reading of a word. Every operand has its field's width by type, so one
check is left: the six trap vectors with a row of their own are not written with the general TRAP constructor. -/

namespace Sys2Proof

/-- The vectors the Trap Dispatcher has a routine for (45_trap.md R121). -/
def definedVector (v : BitVec 8) : Bool :=
  decide (0x20 ≤ v.toNat ∧ v.toNat ≤ 0x25)

/-- An instruction a decoder can give: the vector of `trap` has no row of its own. -/
def Instr.wf : Instr → Bool
  | .trap v => !definedVector v
  | .br _ _ _ _ | .addReg _ _ _ | .addImm _ _ _ | .ld _ _ | .st _ _ | .jsr _ | .jsrr _ | .andReg _ _ _
  | .andImm _ _ _ | .ldr _ _ _ | .str _ _ _ | .reserved8 | .not _ _ | .ldi _ _ | .sti _ _ | .jmp _
  | .reservedD | .lea _ _ | .trapGetc | .trapOut | .trapPuts | .trapIn | .trapPutsp | .trapHalt => true

end Sys2Proof
end

