-- ==== Sys2Proof/Decode.lean ====
section
/-! DEFINITION. The decoder (30_encoding.md R50 to R59), total on every 16-bit word, and the encoder, written from
the same formats. The opcode values are those of R54, which the spec takes from the LC-3 (its decision D1;
notes/assumptions/6.md). -/

namespace Sys2Proof

/-- The register field whose low bit is bit `lo` (R51). -/
def regField (lo : Nat) (w : Word) : Reg := (w.extractLsb' lo 3).toFin

/-- TRAP, by its vector `ir[7:0]`; bits [11:8] are not read (R55, R57, R121). -/
def decodeTrap (v : BitVec 8) : Instr :=
  if v = 0x20#8 then .trapGetc
  else if v = 0x21#8 then .trapOut
  else if v = 0x22#8 then .trapPuts
  else if v = 0x23#8 then .trapIn
  else if v = 0x24#8 then .trapPutsp
  else if v = 0x25#8 then .trapHalt
  else .trap v

/-- Decode one instruction word: all 16 opcode values of `ir[15:12]`, no wildcard (R54, R55). The reserved opcodes
0x8 and 0xD are instructions of their own, whose meaning raises the decode error (R56, R142). -/
def decodeWord (w : Word) : Instr :=
  match w.getLsbD 15, w.getLsbD 14, w.getLsbD 13, w.getLsbD 12 with
  | false, false, false, false =>
    .br (w.getLsbD 11) (w.getLsbD 10) (w.getLsbD 9) (w.extractLsb' 0 9)
  | false, false, false, true =>
    if w.getLsbD 5 then .addImm (regField 9 w) (regField 6 w) (w.extractLsb' 0 5)
    else .addReg (regField 9 w) (regField 6 w) (regField 0 w)
  | false, false, true, false => .ld (regField 9 w) (w.extractLsb' 0 9)
  | false, false, true, true => .st (regField 9 w) (w.extractLsb' 0 9)
  | false, true, false, false =>
    if w.getLsbD 11 then .jsr (w.extractLsb' 0 11) else .jsrr (regField 6 w)
  | false, true, false, true =>
    if w.getLsbD 5 then .andImm (regField 9 w) (regField 6 w) (w.extractLsb' 0 5)
    else .andReg (regField 9 w) (regField 6 w) (regField 0 w)
  | false, true, true, false => .ldr (regField 9 w) (regField 6 w) (w.extractLsb' 0 6)
  | false, true, true, true => .str (regField 9 w) (regField 6 w) (w.extractLsb' 0 6)
  | true, false, false, false => .reserved8
  | true, false, false, true => .not (regField 9 w) (regField 6 w)
  | true, false, true, false => .ldi (regField 9 w) (w.extractLsb' 0 9)
  | true, false, true, true => .sti (regField 9 w) (w.extractLsb' 0 9)
  | true, true, false, false => .jmp (regField 6 w)
  | true, true, false, true => .reservedD
  | true, true, true, false => .lea (regField 9 w) (w.extractLsb' 0 9)
  | true, true, true, true => decodeTrap (w.extractLsb' 0 8)

/-- The one reason a decoder can refuse its input: it was not given exactly one 16-bit word (R50, R59). Every
16-bit word decodes (R55). -/
inductive DecodeRefusal where
  | notOneWord
  deriving DecidableEq, Repr

/-- Decode `nbits` bits whose value is `w`, the bits above them 0. -/
def decodeBits (nbits w : Nat) : Except DecodeRefusal Instr :=
  if nbits ≤ 16 ∧ w < 2 ^ nbits then .ok (decodeWord (BitVec.ofNat 16 w)) else .error .notOneWord

/-- The decoder on a row of spec/opcode_table.json, bit 0 the least significant bit of the one word. -/
def decodeTableWord (nbits w : Nat) : Option Instr :=
  match decodeBits nbits w with
  | .ok i => some i
  | .error _ => none

/-- The 3-bit field that names a register (R51). -/
def regBits (r : Reg) : BitVec 3 := BitVec.ofFin r

/-- A field's bits in the word, the field's low bit at bit `lo` (R51). -/
def atBit {n : Nat} (lo : Nat) (v : BitVec n) : Word := v.setWidth 16 <<< lo

/-- The TRAP word of a vector; bits [11:8] are written 0000 (R57). -/
def encodeTrap (v : BitVec 8) : Word := atBit 12 0xF#4 ||| atBit 0 v

/-- The word of an instruction (R51, R54). The bits R57 says no rule reads take the values it reports the LC-3
assembler writes, and 0 in a reserved opcode (notes/assumptions/7.md). A field that is all 0 is not written. -/
def encode : Instr → Word
  | .br n z p off =>
    atBit 12 0x0#4 ||| atBit 11 (BitVec.ofBool n) ||| atBit 10 (BitVec.ofBool z) ||| atBit 9 (BitVec.ofBool p) |||
      atBit 0 off
  | .addReg dr sr1 sr2 =>
    atBit 12 0x1#4 ||| atBit 9 (regBits dr) ||| atBit 6 (regBits sr1) ||| atBit 5 0#1 ||| atBit 0 (regBits sr2)
  | .addImm dr sr1 imm =>
    atBit 12 0x1#4 ||| atBit 9 (regBits dr) ||| atBit 6 (regBits sr1) ||| atBit 5 1#1 ||| atBit 0 imm
  | .ld dr off => atBit 12 0x2#4 ||| atBit 9 (regBits dr) ||| atBit 0 off
  | .st sr off => atBit 12 0x3#4 ||| atBit 9 (regBits sr) ||| atBit 0 off
  | .jsr off => atBit 12 0x4#4 ||| atBit 11 1#1 ||| atBit 0 off
  | .jsrr base => atBit 12 0x4#4 ||| atBit 11 0#1 ||| atBit 6 (regBits base)
  | .andReg dr sr1 sr2 =>
    atBit 12 0x5#4 ||| atBit 9 (regBits dr) ||| atBit 6 (regBits sr1) ||| atBit 5 0#1 ||| atBit 0 (regBits sr2)
  | .andImm dr sr1 imm =>
    atBit 12 0x5#4 ||| atBit 9 (regBits dr) ||| atBit 6 (regBits sr1) ||| atBit 5 1#1 ||| atBit 0 imm
  | .ldr dr base off => atBit 12 0x6#4 ||| atBit 9 (regBits dr) ||| atBit 6 (regBits base) ||| atBit 0 off
  | .str sr base off => atBit 12 0x7#4 ||| atBit 9 (regBits sr) ||| atBit 6 (regBits base) ||| atBit 0 off
  | .reserved8 => atBit 12 0x8#4
  | .not dr sr => atBit 12 0x9#4 ||| atBit 9 (regBits dr) ||| atBit 6 (regBits sr) ||| atBit 0 0x3F#6
  | .ldi dr off => atBit 12 0xA#4 ||| atBit 9 (regBits dr) ||| atBit 0 off
  | .sti sr off => atBit 12 0xB#4 ||| atBit 9 (regBits sr) ||| atBit 0 off
  | .jmp base => atBit 12 0xC#4 ||| atBit 6 (regBits base)
  | .reservedD => atBit 12 0xD#4
  | .lea dr off => atBit 12 0xE#4 ||| atBit 9 (regBits dr) ||| atBit 0 off
  | .trap v => encodeTrap v
  | .trapGetc => encodeTrap 0x20#8
  | .trapOut => encodeTrap 0x21#8
  | .trapPuts => encodeTrap 0x22#8
  | .trapIn => encodeTrap 0x23#8
  | .trapPutsp => encodeTrap 0x24#8
  | .trapHalt => encodeTrap 0x25#8

end Sys2Proof
end

