-- ==== Sys2Proof/Config.lean ====
section
/-! DEFINITION. What is fixed for a run but open in the spec: the parameters of 00_scope.md R6 (arguments of the
model, never constants a proof could lean on), the launch parameters of 10_state.md R24, and the free values that
stand for the state 60_exceptions.md R145 leaves UNSPECIFIED. -/

namespace Sys2Proof

/-- The parameters of R6 that a step reads. The state carries them, no step changes them, and a claim quantifies
over them. -/
structure Params where
  /-- `in_prompt` (R6, R125, D14): the bytes the IN routine writes before it reads. OPEN in the spec. -/
  inPrompt : List Byte
  /-- `jsrr_base_read_first` (R6, R94, D4): `false` writes R7 first, `true` reads BaseR first. -/
  jsrrBaseReadFirst : Bool
  deriving DecidableEq, Repr

/-- The values `reset_flags` may take (R6, R24, D7). -/
inductive ResetFlags where
  | noneSet
  | onlyN
  | onlyZ
  | onlyP
  deriving DecidableEq, Repr

/-- Everything a launch fixes (R24, R160, R161): the entry address, the unspecified reset values, the parameters a
step reads, and the program image as words. `image_byte_order` is not here: it belongs to the external loader
(R35, R161), and the core sees only words. -/
structure Launch where
  /-- `ENTRY_ADDRESS` (R6, D8). -/
  entryAddress : Word
  /-- `reset_gpr` (R6, D6). -/
  resetGpr : Vector Word 8
  /-- `reset_flags` (R6, D7). -/
  resetFlags : ResetFlags
  /-- The parameters a step reads. -/
  params : Params
  /-- The image: `w[0..k-1]` of R161. -/
  image : List Word
  deriving DecidableEq, Repr

namespace Config

/-- The conventional entry address (R6, R24, D8). -/
def conventionalEntry : Word := 0x3000

/-- The parameters of `State.reset`. DESIGN CHOICE: the empty prompt (the spec gives no text, D14), see
notes/assumptions/3.md; `jsrr_base_read_first` has the spec's default, `false` (R6, D4). -/
def defaultParams : Params := { inPrompt := [], jsrrBaseReadFirst := false }

/-- The launch of `State.reset`: the conventional entry, no image, and the values named in notes/assumptions/1.md,
2.md and 3.md (DESIGN CHOICE) for what R24 leaves UNSPECIFIED. -/
def conventionalLaunch : Launch :=
  { entryAddress := conventionalEntry
    resetGpr := Vector.replicate 8 0
    resetFlags := .noneSet
    params := defaultParams
    image := [] }

/-! The free values of R145, one draw per number (notes/assumptions/4.md). They have no body: nothing in Lean can
say what they are. -/

/-- Register Ri after the n-th error (R145: any value). -/
opaque freeReg : Nat → Reg → Word
/-- The pc after the n-th error (R145: any value). -/
opaque freePc : Nat → Word
/-- The N flag after the n-th error (R145: any value). -/
opaque freeN : Nat → Bool
/-- The Z flag after the n-th error (R145: any value). -/
opaque freeZ : Nat → Bool
/-- The P flag after the n-th error (R145: any value). -/
opaque freeP : Nat → Bool
/-- The words that memory holds after the n-th error, as writes to an all-zero memory (R145: any value). Every
memory is reached by some such list. -/
opaque freeCells : Nat → List (Word × Word)

end Config

end Sys2Proof
end

