-- ==== Sys2Proof/Machine/State.lean ====
section
/-! DEFINITION. The machine's state (10_state.md R10 to R24), its reset value, and the reasons a step can stop. -/

namespace Sys2Proof.Machine

/-- The run state (R17). -/
inductive RunState where
  | running
  | halted
  deriving DecidableEq, Repr

/-- Why the machine halted (R18). -/
inductive StopReason where
  /-- `NONE`: the machine is running. -/
  | none
  /-- `HALT_TRAP` (R127). -/
  | haltTrap
  /-- `RESERVED_OPCODE(op)` (R142). -/
  | reservedOpcode (op : BitVec 4)
  /-- `UNDEFINED_TRAP_VECTOR(v)` (R143). -/
  | undefinedTrapVector (v : BitVec 8)
  /-- `IO_READ_ERROR` (R144). -/
  | ioReadError
  /-- `IO_WRITE_ERROR` (R144). -/
  | ioWriteError
  deriving DecidableEq, Repr

/-- The condition flags: three booleans (R13). -/
structure Flags where
  n : Bool
  z : Bool
  p : Bool
  deriving DecidableEq, Repr

/-- Memory: the words that are not 0x0000, as (address, word) pairs with the addresses strictly rising. An address
that is not listed reads as 0x0000, the reset content of R20 and R24. The cell is a word, because the spec's memory
has no byte addresses (R30, R35; notes/assumptions/8.md). -/
abbrev Memory := List (Nat × Word)

/-- One answer of the host to a console read (R150). -/
inductive ReadAnswer where
  /-- The next input byte. -/
  | byte (b : Byte)
  /-- A failed read, the end of input included (R144, D13). -/
  | failed
  /-- No byte yet: the read is held through one more step (R75, R122). -/
  | notYet
  deriving DecidableEq, Repr

/-- How far an instruction that the last step did not complete has come (R75, items 4 and 5). The pc is then still
the instruction's address. -/
inductive Progress where
  /-- The last step completed its instruction. -/
  | idle
  /-- GETC is held in its console read (R122). -/
  | getcHeld
  /-- IN has delivered its prompt and is held in its console read (R125, R128). -/
  | inHeld
  /-- PUTS has passed over all 65,536 words, found no zero word, and is still writing (R124). -/
  | putsUnended
  /-- The same for PUTSP (R126). -/
  | putspUnended
  deriving DecidableEq, Repr

/-- The machine, as plain data. The first eight fields are the spec's; the last five are the model's own: the
host's side of the console contract, the parameters a step reads, the progress of an instruction that has not
completed, and the number of free draws made (notes/assumptions/3.md, 4.md, 5.md, 10.md). -/
structure State where
  /-- `run_state` (R17). -/
  runState : RunState
  /-- `stop_reason` (R18). -/
  stopReason : StopReason
  /-- R0 to R7 (R10). -/
  regs : Vector Word 8
  /-- The program counter (R12). -/
  pc : Word
  /-- N, Z and P (R13). -/
  flags : Flags
  /-- Memory (R20). -/
  mem : Memory
  /-- The console bytes written, in order (R21). -/
  out : List Byte
  /-- The number of console bytes taken (R21). -/
  inConsumed : Nat
  /-- MODEL'S OWN: the host's answers to the coming console reads, first one first; when none is left, the read is
  held (R23, R150). -/
  hostReads : List ReadAnswer
  /-- MODEL'S OWN: how many more console writes the host accepts before it reports a failure; `none` when it accepts
  every one (R23, R150). -/
  writeBudget : Option Nat
  /-- MODEL'S OWN: the parameters of R6 that a step reads. -/
  params : Params
  /-- MODEL'S OWN: how far an uncompleted instruction has come (R75). -/
  progress : Progress
  /-- MODEL'S OWN: how many errors have drawn free values (R145). -/
  draws : Nat
  deriving DecidableEq, Repr

/-- Why the machine could not be run. No step raises a fault: no memory access, decode or console event of this
machine faults (R31, R55, R140). -/
inductive Fault where
  /-- The image has more words than `65536 − ENTRY_ADDRESS`. Raised by `launch` only, where R161 says the loader
  must reject the image and the core never starts. Safe: nothing runs. -/
  | oversizedImage
  deriving DecidableEq, Repr

/-- Why an instruction has no meaning here. -/
inductive Refusal where
  /-- An instruction the model gives no meaning. Raised by no arm of `exec`: every instruction has its meaning.
  Safe: the machine would stop where the hardware goes on. -/
  | notModelled (mnemonic : String)
  deriving DecidableEq, Repr

/-- The flags a launch parameter names (R24, D7). -/
def Flags.ofReset : ResetFlags → Flags
  | .noneSet => { n := false, z := false, p := false }
  | .onlyN => { n := true, z := false, p := false }
  | .onlyZ => { n := false, z := true, p := false }
  | .onlyP => { n := false, z := false, p := true }

/-- The machine right after reset, with no program image placed (R24, R160): RUNNING, no stop reason, pc at the
conventional entry address, memory all zero, an empty console history. R24 leaves the registers and the flags
UNSPECIFIED: here they hold the values of `Config.conventionalLaunch` (DESIGN CHOICE, notes/assumptions/1.md and
2.md). The host has given no answer yet and accepts every write (DESIGN CHOICE, notes/assumptions/5.md). -/
def State.reset : State :=
  { runState := .running
    stopReason := .none
    regs := Config.conventionalLaunch.resetGpr
    pc := Config.conventionalLaunch.entryAddress
    flags := Flags.ofReset Config.conventionalLaunch.resetFlags
    mem := []
    out := []
    inConsumed := 0
    hostReads := []
    writeBudget := none
    params := Config.conventionalLaunch.params
    progress := .idle
    draws := 0 }

end Sys2Proof.Machine
end

