-- ==== Sys2Proof/Machine/Ops.lean ====
section
/-! DEFINITION. The operations the meanings share: the primitives of 00_scope.md R8 over registers, memory and the
console, and the two ways an instruction leaves the normal flow: an error (60_exceptions.md R141) and a system call
(45_trap.md R120). -/

namespace Sys2Proof.Machine

/-! ### Memory (20_memory.md) -/

/-- The canonical form: addresses strictly rising, each below 65536, and no entry 0x0000. -/
abbrev Memory.wf (m : Memory) : Prop :=
  m.Pairwise (fun c d => c.1 < d.1) ∧ ∀ c ∈ m, c.1 < 65536 ∧ c.2 ≠ 0#16

/-- The word of an address in the list; 0x0000 where none is listed (R20). -/
def Memory.lookup : Memory → Nat → Word
  | [], _ => 0#16
  | c :: rest, a => if c.1 = a then c.2 else Memory.lookup rest a

/-- Put a cell in its place. -/
def Memory.place : Memory → Nat → Word → Memory
  | [], a, v => [(a, v)]
  | c :: rest, a, v => if a < c.1 then (a, v) :: c :: rest else c :: Memory.place rest a v

/-- Take an address out of the list. -/
def Memory.erase (m : Memory) (a : Nat) : Memory := m.filter (fun c => c.1 ≠ a)

/-- `MemRead(addr, 1)` (R32). An address is a 16-bit word, so it is already reduced modulo 65536 (R31). -/
def Memory.read (m : Memory) (a : Word) : Word := Memory.lookup m a.toNat

/-- `MemWrite(addr, 1, v)` (R33). Writing 0x0000 takes the entry out, so the form stays canonical. -/
def Memory.write (m : Memory) (a v : Word) : Memory :=
  if v = 0#16 then Memory.erase m a.toNat else Memory.place (Memory.erase m a.toNat) a.toNat v

/-- Write each pair in turn. -/
def Memory.writeAll (m : Memory) (cells : List (Word × Word)) : Memory :=
  cells.foldl (fun m c => Memory.write m c.1 c.2) m

/-! ### Registers, pc and memory of the state -/

/-- `x[i]` (R8, R10). -/
def State.reg (s : State) (r : Reg) : Word := s.regs[r]

/-- `x[i] <- v` (R8, R10). No register is hard-wired. -/
def State.setReg (s : State) (r : Reg) (v : Word) : State := { s with regs := s.regs.set r v }

/-- `pc <- target` (R8). -/
def State.setPc (s : State) (v : Word) : State := { s with pc := v }

/-- The memory word at an address (R32). -/
def State.memRead (s : State) (a : Word) : Word := s.mem.read a

/-- Write a memory word (R33). -/
def State.memWrite (s : State) (a v : Word) : State := { s with mem := s.mem.write a v }

/-- R7, the register JSR, JSRR and TRAP write the return address to (R10, R11). -/
def linkReg : Reg := 7

/-- R0, the register the trap routines read and write (R10). -/
def trapReg : Reg := 0

/-- `x[7] <- pc`, with pc already incremented (R93, R94, R120). -/
def State.link (s : State) : State := s.setReg linkReg s.pc

/-! ### Fetch (40_cycle.md R72) -/

/-- The instruction word at the pc. -/
def State.fetch (s : State) : Word := s.memRead s.pc

/-- The one increment of the pc, modulo 2^16, before the instruction's effects. -/
def State.advance (s : State) : State := s.setPc (s.pc + 1)

/-! ### Stopping (10_state.md R17, R18; 60_exceptions.md R140 to R145) -/

/-- `halt(reason)` (R8). -/
def State.halt (s : State) (reason : StopReason) : State :=
  { s with runState := .halted, stopReason := reason }

/-- Registers, flags, pc and memory take free values (R145). The free memory is canonical like any other. -/
def State.scramble (s : State) : State :=
  { s with
    regs := Vector.ofFn (Config.freeReg s.draws)
    pc := Config.freePc s.draws
    flags := { n := Config.freeN s.draws, z := Config.freeZ s.draws, p := Config.freeP s.draws }
    mem := Memory.writeAll [] (Config.freeCells s.draws)
    draws := s.draws + 1 }

/-- `raise E(info)` (R141): the one way every error of the core is taken. There is no handler (R140): the machine
halts with the reason, the console history stays exact, and registers, flags, pc and memory are free (R145). -/
def State.raise (s : State) (reason : StopReason) : State :=
  { (s.scramble.halt reason) with progress := .idle }

/-! ### The console (60_exceptions.md R150) -/

/-- What the host did with a console write. -/
inductive WriteResult where
  | accepted (s : State)
  | failed (s : State)
  deriving DecidableEq, Repr

/-- What the host did with a console read. -/
inductive ReadResult where
  | byte (b : Byte) (s : State)
  | failed (s : State)
  | notYet (s : State)
  deriving DecidableEq, Repr

/-- `ConsoleWrite(b)`: an accepted byte is in the history at once (R21, R128). -/
def State.consoleWrite (s : State) (b : Byte) : WriteResult :=
  match s.writeBudget with
  | none => .accepted { s with out := s.out ++ [b] }
  | some 0 => .failed s
  | some (k + 1) => .accepted { s with out := s.out ++ [b], writeBudget := some k }

/-- Write bytes in order. The first failure ends it, and the bytes before it stay written (R144, R146). -/
def State.consoleWriteAll (s : State) : List Byte → WriteResult
  | [] => .accepted s
  | b :: rest =>
    match s.consoleWrite b with
    | .accepted s' => s'.consoleWriteAll rest
    | .failed s' => .failed s'

/-- `ConsoleRead()`: the host's next answer; no answer left is a read still held. A byte taken is counted (R21). -/
def State.consoleRead (s : State) : ReadResult :=
  match s.hostReads with
  | [] => .notYet s
  | .notYet :: rest => .notYet { s with hostReads := rest }
  | .failed :: rest => .failed { s with hostReads := rest }
  | .byte b :: rest => .byte b { s with hostReads := rest, inConsumed := s.inConsumed + 1 }

/-- The host accepts the next `n` writes. -/
def State.accepts (s : State) (n : Nat) : Bool :=
  match s.writeBudget with
  | none => true
  | some k => decide (n ≤ k)

/-! ### System calls (45_trap.md R120; 60_exceptions.md R148, R149) -/

/-- How a trap routine ends (R75). -/
inductive RoutineResult where
  /-- It completed, HALT included. -/
  | done (s : State)
  /-- It raised an error. -/
  | error (reason : StopReason) (s : State)
  /-- It has not completed: a held read, or a string with no end. -/
  | unfinished (p : Progress) (s : State)
  deriving DecidableEq, Repr

/-- Return from a trap (R149): implicit, the next step fetches from the pc that TRAP left. -/
def State.trapReturn (s : State) : State := { s with progress := .idle }

/-- A TRAP that has not completed (R75): `before` is the state after the increment, `s` the state the routine has
reached. Only console effects show (R128, R151): no register is written and the pc is again the TRAP's address, so
the next step goes on with the same TRAP. -/
def State.suspend (before s : State) (p : Progress) : State :=
  { s with regs := before.regs, pc := before.pc - 1, progress := p }

/-- The one way every TRAP is taken (R120, R148): R7 receives the incremented pc, then the routine runs. -/
def trapCall (routine : State → RoutineResult) (s : State) : Host.Outcome State Fault Refusal :=
  match routine s.link with
  | .done s' => .next s'.trapReturn
  | .error reason s' => .next (s'.raise reason)
  | .unfinished p s' => .next (State.suspend s s' p)

end Sys2Proof.Machine
end

