-- ==== Sys2Proof/Machine/Flags.lean ====
section
/-! DEFINITION. The condition flags (10_state.md R13 to R16). -/

namespace Sys2Proof.Machine

/-- The flags `setcc` gives for a 16-bit result (R14). -/
def Flags.ofResult (v : Word) : Flags :=
  if v = 0#16 then { n := false, z := true, p := false }
  else if v.getLsbD 15 then { n := true, z := false, p := false }
  else { n := false, z := false, p := true }

/-- `setcc(v)` (R14). -/
def State.setcc (s : State) (v : Word) : State := { s with flags := Flags.ofResult v }

/-- Write a result: `x[DR] <- r`, then `setcc(r)` (R15). -/
def State.setResult (s : State) (dr : Reg) (r : Word) : State := (s.setReg dr r).setcc r

/-- BR's condition: some tested flag is true (R90). -/
def Flags.meets (f : Flags) (n z p : Bool) : Bool := (n && f.n) || (z && f.z) || (p && f.p)

end Sys2Proof.Machine
end

