-- ==== Sys2Proof/Machine/Operands.lean ====
section
/-! DEFINITION. Operands and effective addresses (30_encoding.md R52, R53; the addressing modes of 43_load.md). -/

namespace Sys2Proof.Machine

/-- `sext_N(v)`: replicate the top bit of an N-bit field into the bits above it (R52). -/
def sext {n : Nat} (v : BitVec n) : Word := v.signExtend 16

/-- `zext_8(b)`: a console byte in bits [7:0], zeros above (R8, R34). -/
def zext (b : Byte) : Word := b.setWidth 16

/-- Bits [7:0] of a word (R35). -/
def lowByte (w : Word) : Byte := w.extractLsb' 0 8

/-- Bits [15:8] of a word (R35). -/
def highByte (w : Word) : Byte := w.extractLsb' 8 8

/-- PC-relative: `pc + sext_N(offset)` modulo 2^16, with the incremented pc (R31, R72). -/
def State.pcRelative {n : Nat} (s : State) (offset : BitVec n) : Word := s.pc + sext offset

/-- Indirect: the word at the PC-relative address is the effective address (R101, R111). -/
def State.indirect (s : State) (offset : BitVec 9) : Word := s.memRead (s.pcRelative offset)

/-- Base + offset: `x[BaseR] + sext_6(offset6)` modulo 2^16 (R102, R112). The base register is not changed. -/
def State.baseOffset (s : State) (base : Reg) (offset : BitVec 6) : Word := s.reg base + sext offset

end Sys2Proof.Machine
end

