-- ==== Sys2Proof/Machine/Control.lean ====
section
/-! DEFINITION. BR, JMP, JSR and JSRR (42_control.md). The pc they see is the incremented one (R72). -/

namespace Sys2Proof.Machine

/-- BR (R90). With no tested flag it only advances (R58). -/
def execBr (n z p : Bool) (offset9 : BitVec 9) (s : State) : Host.Outcome State Fault Refusal :=
  .next (if s.flags.meets n z p then s.setPc (s.pcRelative offset9) else s)

/-- JMP (R91). -/
def execJmp (base : Reg) (s : State) : Host.Outcome State Fault Refusal :=
  .next (s.setPc (s.reg base))

/-- JSR (R93). -/
def execJsr (offset11 : BitVec 11) (s : State) : Host.Outcome State Fault Refusal :=
  .next (s.link.setPc (s.pcRelative offset11))

/-- JSRR (R94), in the order the parameter `jsrr_base_read_first` selects. -/
def execJsrr (base : Reg) (s : State) : Host.Outcome State Fault Refusal :=
  .next (if s.params.jsrrBaseReadFirst then s.link.setPc (s.reg base) else s.link.setPc (s.link.reg base))

end Sys2Proof.Machine
end

