-- ==== Sys2Proof/Machine/Load.lean ====
section
/-! DEFINITION. LD, LDI, LDR and LEA (43_load.md). -/

namespace Sys2Proof.Machine

/-- LD (R100). -/
def execLd (dr : Reg) (offset9 : BitVec 9) (s : State) : Host.Outcome State Fault Refusal :=
  .next (s.setResult dr (s.memRead (s.pcRelative offset9)))

/-- LDI: two reads, the pointer and then the data (R101). -/
def execLdi (dr : Reg) (offset9 : BitVec 9) (s : State) : Host.Outcome State Fault Refusal :=
  .next (s.setResult dr (s.memRead (s.indirect offset9)))

/-- LDR (R102). -/
def execLdr (dr base : Reg) (offset6 : BitVec 6) (s : State) : Host.Outcome State Fault Refusal :=
  .next (s.setResult dr (s.memRead (s.baseOffset base offset6)))

/-- LEA: the address itself, no memory access; it sets the flags (R103). -/
def execLea (dr : Reg) (offset9 : BitVec 9) (s : State) : Host.Outcome State Fault Refusal :=
  .next (s.setResult dr (s.pcRelative offset9))

end Sys2Proof.Machine
end

