-- ==== Sys2Proof/Machine/Operate.lean ====
section
/-! DEFINITION. ADD, AND and NOT (41_operate.md). -/

namespace Sys2Proof.Machine

/-- ADD, register mode (R80). -/
def execAddReg (dr sr1 sr2 : Reg) (s : State) : Host.Outcome State Fault Refusal :=
  .next (s.setResult dr (s.reg sr1 + s.reg sr2))

/-- ADD, immediate mode (R80). -/
def execAddImm (dr sr1 : Reg) (imm5 : BitVec 5) (s : State) : Host.Outcome State Fault Refusal :=
  .next (s.setResult dr (s.reg sr1 + sext imm5))

/-- AND, register mode (R81). -/
def execAndReg (dr sr1 sr2 : Reg) (s : State) : Host.Outcome State Fault Refusal :=
  .next (s.setResult dr (s.reg sr1 &&& s.reg sr2))

/-- AND, immediate mode; the immediate is sign-extended first (R81). -/
def execAndImm (dr sr1 : Reg) (imm5 : BitVec 5) (s : State) : Host.Outcome State Fault Refusal :=
  .next (s.setResult dr (s.reg sr1 &&& sext imm5))

/-- NOT (R82). -/
def execNot (dr sr : Reg) (s : State) : Host.Outcome State Fault Refusal :=
  .next (s.setResult dr (~~~ (s.reg sr)))

end Sys2Proof.Machine
end

