-- ==== Sys2Proof/Machine/Reserved.lean ====
section
/-! DEFINITION. The two reserved opcodes (30_encoding.md R56; 60_exceptions.md R142). -/

namespace Sys2Proof.Machine

/-- Opcode 0x8 raises `DecodeError(RESERVED_OPCODE(0x8))` before any other effect (R142). -/
def execReserved8 (s : State) : Host.Outcome State Fault Refusal := .next (s.raise (.reservedOpcode 0x8#4))

/-- Opcode 0xD raises `DecodeError(RESERVED_OPCODE(0xD))` before any other effect (R142). -/
def execReservedD (s : State) : Host.Outcome State Fault Refusal := .next (s.raise (.reservedOpcode 0xD#4))

end Sys2Proof.Machine
end

