-- ==== Sys2Proof/Machine/Store.lean ====
section
/-! DEFINITION. ST, STI and STR (44_store.md). -/

namespace Sys2Proof.Machine

/-- ST (R110). -/
def execSt (sr : Reg) (offset9 : BitVec 9) (s : State) : Host.Outcome State Fault Refusal :=
  .next (s.memWrite (s.pcRelative offset9) (s.reg sr))

/-- STI: read the pointer, then write through it (R111). -/
def execSti (sr : Reg) (offset9 : BitVec 9) (s : State) : Host.Outcome State Fault Refusal :=
  .next (s.memWrite (s.indirect offset9) (s.reg sr))

/-- STR (R112). -/
def execStr (sr base : Reg) (offset6 : BitVec 6) (s : State) : Host.Outcome State Fault Refusal :=
  .next (s.memWrite (s.baseOffset base offset6) (s.reg sr))

end Sys2Proof.Machine
end

