-- ==== Sys2Proof/Machine/Trap.lean ====
section
/-! DEFINITION. TRAP and the Trap Dispatcher's routines (45_trap.md). A routine runs inside its TRAP's step, after
R7 has received the incremented pc (R120). -/

namespace Sys2Proof.Machine

/-- Put a byte read from the console into R0, zero-extended, and set the flags from it (R122, R125). -/
def State.deliver (s : State) (b : Byte) : State := s.setResult trapReg (zext b)

/-- GETC (R122). -/
def getcRoutine (s : State) : RoutineResult :=
  match s.consoleRead with
  | .byte b s' => .done (s'.deliver b)
  | .failed s' => .error .ioReadError s'
  | .notYet s' => .unfinished .getcHeld s'

/-- OUT (R123). -/
def outRoutine (s : State) : RoutineResult :=
  match s.consoleWrite (lowByte (s.reg trapReg)) with
  | .accepted s' => .done s'
  | .failed s' => .error .ioWriteError s'

/-- The words of a string and whether its zero word was found, looking at no more than `fuel` words from address
`a` on; the address wraps (R31, R124). -/
def scanString (m : Memory) : Nat → Word → List Word × Bool
  | 0, _ => ([], false)
  | fuel + 1, a =>
    if m.read a = 0#16 then ([], true)
    else
      let rest := scanString m fuel (a + 1)
      (m.read a :: rest.1, rest.2)

/-- The string at R0 (R124): 65,536 words are all there are. -/
def State.stringAtR0 (s : State) : List Word × Bool := scanString s.mem 65536 (s.reg trapReg)

/-- PUTS writes the low byte of a word (R124). -/
def putsBytes (w : Word) : List Byte := [lowByte w]

/-- PUTSP writes the low byte, then the high byte if it is not zero (R126). -/
def putspBytes (w : Word) : List Byte :=
  if highByte w = 0#8 then [lowByte w] else [lowByte w, highByte w]

/-- PUTS and PUTSP: write the bytes of the string's words, each word's by `bytes`. Memory does not change while they
run, so a string with no zero word is one lap of all 65,536 words, written over and over: a lap ends where it began,
at R0, and the routine has not completed (R75, R124). -/
def writeString (bytes : Word → List Byte) (unended : Progress) (s : State) : RoutineResult :=
  match s.consoleWriteAll (s.stringAtR0.1.flatMap bytes) with
  | .accepted s' => if s.stringAtR0.2 then .done s' else .unfinished unended s'
  | .failed s' => .error .ioWriteError s'

/-- PUTS (R124). -/
def putsRoutine (s : State) : RoutineResult := writeString putsBytes .putsUnended s

/-- PUTSP (R126). -/
def putspRoutine (s : State) : RoutineResult := writeString putspBytes .putspUnended s

/-- The prompt bytes IN still has to write: none when it was held after writing them (R125, R128). -/
def State.promptLeft (s : State) : List Byte :=
  if s.progress = .inHeld then [] else s.params.inPrompt

/-- IN: the prompt, the read, the echo, then R0 and the flags (R125). -/
def inRoutine (s : State) : RoutineResult :=
  match s.consoleWriteAll s.promptLeft with
  | .failed s' => .error .ioWriteError s'
  | .accepted s1 =>
    match s1.consoleRead with
    | .notYet s' => .unfinished .inHeld s'
    | .failed s' => .error .ioReadError s'
    | .byte b s2 =>
      match s2.consoleWrite b with
      | .failed s' => .error .ioWriteError s'
      | .accepted s3 => .done (s3.deliver b)

/-- HALT (R127). It writes nothing to the console. -/
def haltRoutine (s : State) : RoutineResult := .done (s.halt .haltTrap)

/-- The dispatch table (R121); any other vector is a decode error (R143). -/
def dispatch (v : BitVec 8) (s : State) : RoutineResult :=
  if v = 0x20#8 then getcRoutine s
  else if v = 0x21#8 then outRoutine s
  else if v = 0x22#8 then putsRoutine s
  else if v = 0x23#8 then inRoutine s
  else if v = 0x24#8 then putspRoutine s
  else if v = 0x25#8 then haltRoutine s
  else .error (.undefinedTrapVector v) s

/-- TRAP with any vector (R120, R121). -/
def execTrap (v : BitVec 8) (s : State) : Host.Outcome State Fault Refusal := trapCall (dispatch v) s

/-- TRAP 0x20 (R120, R122). -/
def execTrapGetc (s : State) : Host.Outcome State Fault Refusal := trapCall getcRoutine s

/-- TRAP 0x21 (R120, R123). -/
def execTrapOut (s : State) : Host.Outcome State Fault Refusal := trapCall outRoutine s

/-- TRAP 0x22 (R120, R124). -/
def execTrapPuts (s : State) : Host.Outcome State Fault Refusal := trapCall putsRoutine s

/-- TRAP 0x23 (R120, R125). -/
def execTrapIn (s : State) : Host.Outcome State Fault Refusal := trapCall inRoutine s

/-- TRAP 0x24 (R120, R126). -/
def execTrapPutsp (s : State) : Host.Outcome State Fault Refusal := trapCall putspRoutine s

/-- TRAP 0x25 (R120, R127). -/
def execTrapHalt (s : State) : Host.Outcome State Fault Refusal := trapCall haltRoutine s

end Sys2Proof.Machine
end

