-- ==== Sys2Proof/Machine/Cycle.lean ====
section
/-! DEFINITION. One invocation of the step (40_cycle.md R70 to R74). -/

namespace Sys2Proof.Machine

/-- Fetch, increment, decode, execute (R71). -/
def State.cycle (s : State) : Host.Outcome State Fault Refusal := exec (decodeWord s.fetch) s.advance

/-- A halted machine does nothing (R70); a running one performs one instruction cycle (R71). -/
def State.invoke (s : State) : Host.Outcome State Fault Refusal :=
  match s.runState with
  | .halted => .next s
  | .running => s.cycle

/-- Store a word where the next fetch reads, and make the machine one that fetches: RUNNING, with no instruction in
progress (R32, R70). -/
def State.placeWord (s : State) (w : Word) : State :=
  { (s.memWrite s.pc w) with runState := .running, stopReason := .none, progress := .idle }

end Sys2Proof.Machine
end

