-- ==== Sys2Proof/Machine/Launch.lean ====
section
/-! DEFINITION. How a program comes to run: the launch of 70_reset_and_hazards.md R160 and R161, for every value of
the launch parameters and every image. -/

namespace Sys2Proof.Machine

/-- Place the image's words at rising addresses (R161). -/
def Memory.loadImage (m : Memory) (a : Word) : List Word → Memory
  | [] => m
  | w :: rest => Memory.loadImage (m.write a w) (a + 1) rest

/-- Reset with a program image in memory (R24, R160, R161). An image too long for the words from the entry address
on is rejected, and the core never starts. The console's host side is as in `State.reset`. -/
def launch (l : Launch) : Host.Outcome State Fault Refusal :=
  if l.image.length ≤ 65536 - l.entryAddress.toNat then
    .next
      { State.reset with
        regs := l.resetGpr
        pc := l.entryAddress
        flags := Flags.ofReset l.resetFlags
        mem := Memory.loadImage [] l.entryAddress l.image
        params := l.params }
  else .fault .oversizedImage

end Sys2Proof.Machine
end

