-- ==== Sys2Proof/Machine/Step.lean ====
section
/-! DEFINITION. The one transition of the core (40_cycle.md). -/

namespace Sys2Proof.Machine

/-- One step (R70, R71). -/
def step (s : State) : Host.Outcome State Fault Refusal := s.invoke

/-- The state with one instruction word placed where `step` fetches next; bits at and above `nbits` are 0. It stands
for the external loader (R161; notes/assumptions/9.md). -/
def State.withFetchWord (s : State) (nbits w : Nat) : State :=
  s.placeWord (BitVec.ofNat 16 (w % 2 ^ nbits))

end Sys2Proof.Machine
end

