-- ==== Sys2Proof/Safety.lean ====
section
/-! DEFINITION. The terms the claims use: what a sound state is, what a frame leaves alone, and which registers,
bits and instructions the spec's whole-machine rules name. -/

namespace Sys2Proof

/-- The bit positions no rule reads (30_encoding.md R57). -/
def Instr.unreadBit (i : Instr) (k : Nat) : Bool :=
  match i with
  | .addReg _ _ _ | .andReg _ _ _ => decide (3 ≤ k ∧ k ≤ 4)
  | .not _ _ => decide (k ≤ 5)
  | .jmp _ => decide (9 ≤ k ∧ k ≤ 11) || decide (k ≤ 5)
  | .jsrr _ => decide (9 ≤ k ∧ k ≤ 10) || decide (k ≤ 5)
  | .trap _ | .trapGetc | .trapOut | .trapPuts | .trapIn | .trapPutsp | .trapHalt =>
    decide (8 ≤ k ∧ k ≤ 11)
  | .reserved8 | .reservedD => decide (k ≤ 11)
  | .br _ _ _ _ | .addImm _ _ _ | .ld _ _ | .st _ _ | .jsr _ | .andImm _ _ _ | .ldr _ _ _ | .str _ _ _
  | .ldi _ _ | .sti _ _ | .lea _ _ => false

/-- The registers an instruction may write when it raises no error (10_state.md R10): its DR, R7 for JSR, JSRR and
TRAP, R0 for GETC and IN. The TRAP constructor stands for every vector. -/
def Instr.mayWrite (i : Instr) (r : Reg) : Bool :=
  match i with
  | .addReg dr _ _ | .addImm dr _ _ | .andReg dr _ _ | .andImm dr _ _ | .not dr _ | .ld dr _ | .ldi dr _
  | .ldr dr _ _ | .lea dr _ => decide (r = dr)
  | .jsr _ | .jsrr _ | .trapOut | .trapPuts | .trapPutsp | .trapHalt => decide (r = 7)
  | .trapGetc | .trapIn | .trap _ => decide (r = 7 ∨ r = 0)
  | .br _ _ _ _ | .jmp _ | .st _ _ | .sti _ _ | .str _ _ _ | .reserved8 | .reservedD => false

/-- The register whose new value an instruction applies `setcc` to (10_state.md R15): DR, or R0 for GETC and IN. A
TRAP with an undefined vector has none. -/
def Instr.resultReg : Instr → Option Reg
  | .addReg dr _ _ | .addImm dr _ _ | .andReg dr _ _ | .andImm dr _ _ | .not dr _ | .ld dr _ | .ldi dr _
  | .ldr dr _ _ | .lea dr _ => some dr
  | .trapGetc | .trapIn => some 0
  | .br _ _ _ _ | .jmp _ | .jsr _ | .jsrr _ | .st _ _ | .sti _ _ | .str _ _ _ | .trap _ | .trapOut
  | .trapPuts | .trapPutsp | .trapHalt | .reserved8 | .reservedD => none

/-- The opcode value of an instruction (30_encoding.md R54). -/
def Instr.opcode : Instr → BitVec 4
  | .br _ _ _ _ => 0x0
  | .addReg _ _ _ | .addImm _ _ _ => 0x1
  | .ld _ _ => 0x2
  | .st _ _ => 0x3
  | .jsr _ | .jsrr _ => 0x4
  | .andReg _ _ _ | .andImm _ _ _ => 0x5
  | .ldr _ _ _ => 0x6
  | .str _ _ _ => 0x7
  | .reserved8 => 0x8
  | .not _ _ => 0x9
  | .ldi _ _ => 0xA
  | .sti _ _ => 0xB
  | .jmp _ => 0xC
  | .reservedD => 0xD
  | .lea _ _ => 0xE
  | .trap _ | .trapGetc | .trapOut | .trapPuts | .trapIn | .trapPutsp | .trapHalt => 0xF

/-- A register operand is the 3-bit field whose low bit is bit `lo` (30_encoding.md R51, R53). -/
def Names (r : Reg) (w : Word) (lo : Nat) : Prop := r.val = w.toNat / 2 ^ lo % 8

/-- The instructions that may set the pc to a target of their own (10_state.md R12). -/
def Instr.transfersControl : Instr → Bool
  | .br _ _ _ _ | .jmp _ | .jsr _ | .jsrr _ => true
  | .addReg _ _ _ | .addImm _ _ _ | .ld _ _ | .st _ _ | .andReg _ _ _ | .andImm _ _ _ | .ldr _ _ _
  | .str _ _ _ | .reserved8 | .not _ _ | .ldi _ _ | .sti _ _ | .reservedD | .lea _ _ | .trap _
  | .trapGetc | .trapOut | .trapPuts | .trapIn | .trapPutsp | .trapHalt => false

/-- BR, the only reader of the flags (10_state.md R16). -/
def Instr.isBr : Instr → Bool
  | .br _ _ _ _ => true
  | .addReg _ _ _ | .addImm _ _ _ | .ld _ _ | .st _ _ | .jsr _ | .jsrr _ | .andReg _ _ _ | .andImm _ _ _
  | .ldr _ _ _ | .str _ _ _ | .reserved8 | .not _ _ | .ldi _ _ | .sti _ _ | .jmp _ | .reservedD
  | .lea _ _ | .trap _ | .trapGetc | .trapOut | .trapPuts | .trapIn | .trapPutsp | .trapHalt => false

namespace Machine

/-! ### Addresses and stores -/

/-- A signed offset added to an address, modulo 65,536 (20_memory.md R31; 30_encoding.md R53). -/
def offsetBy {n : Nat} (a : Word) (offset : BitVec n) : Word := BitVec.ofInt 16 (a.toNat + offset.toInt)

/-- The address an instruction stores to and the word it stores there, by the expressions of its meaning
(44_store.md). Only ST, STI and STR store. -/
def storesTo (i : Instr) (s : State) : Option (Word × Word) :=
  match i with
  | .st sr off => some (s.pcRelative off, s.reg sr)
  | .sti sr off => some (s.indirect off, s.reg sr)
  | .str sr base off => some (s.baseOffset base off, s.reg sr)
  | .br _ _ _ _ | .addReg _ _ _ | .addImm _ _ _ | .ld _ _ | .jsr _ | .jsrr _ | .andReg _ _ _
  | .andImm _ _ _ | .ldr _ _ _ | .reserved8 | .not _ _ | .ldi _ _ | .jmp _ | .reservedD | .lea _ _
  | .trap _ | .trapGetc | .trapOut | .trapPuts | .trapIn | .trapPutsp | .trapHalt => none

/-! ### Flags -/

/-- At most one flag is true: {none, N, Z, P} (R13, R24). -/
def Flags.exclusive (f : Flags) : Bool := !(f.n && f.z) && !(f.n && f.p) && !(f.z && f.p)

/-- The flags agree with the signed reading of a result, and so exactly one is true (R14). -/
structure Flags.Reads (f : Flags) (v : Word) : Prop where
  n : f.n = decide (v.toInt < 0)
  z : f.z = decide (v.toInt = 0)
  p : f.p = decide (0 < v.toInt)

/-! ### Stops -/

/-- The stop reasons of R141, after which registers, flags, pc and memory are UNSPECIFIED (R145). -/
def StopReason.isError : StopReason → Bool
  | .none | .haltTrap => false
  | .reservedOpcode _ | .undefinedTrapVector _ | .ioReadError | .ioWriteError => true

/-! ### Frames -/

/-- Registers outside a list keep their values. -/
def SameRegsBut (rs : List Reg) (s t : State) : Prop := ∀ r, r ∉ rs → t.reg r = s.reg r

/-- Every word of memory reads as before. -/
def SameMemory (s t : State) : Prop := ∀ a, t.memRead a = s.memRead a

/-- Every word of memory but one reads as before. -/
def SameMemoryBut (a : Word) (s t : State) : Prop := ∀ b, b ≠ a → t.memRead b = s.memRead b

/-- The console history and the host's coming answers are as before. -/
structure SameConsole (s t : State) : Prop where
  out : t.out = s.out
  inConsumed : t.inConsumed = s.inConsumed
  hostReads : t.hostReads = s.hostReads
  writeBudget : t.writeBudget = s.writeBudget

/-- The run state, the stop reason, the parameters and the model's own marks are as before. -/
structure SameControl (s t : State) : Prop where
  runState : t.runState = s.runState
  stopReason : t.stopReason = s.stopReason
  params : t.params = s.params
  progress : t.progress = s.progress
  draws : t.draws = s.draws

/-- What an instruction with a destination register does: DR holds the result, the flags read it, and nothing else
changes (the pc keeps its incremented value). -/
structure WritesResult (dr : Reg) (v : Word) (s t : State) : Prop where
  result : t.reg dr = v
  flags : t.flags.Reads v
  regs : SameRegsBut [dr] s t
  pc : t.pc = s.pc
  memory : SameMemory s t
  console : SameConsole s t
  control : SameControl s t

/-- What a store does: the word at the address holds the value, and nothing else changes. -/
structure WritesMemory (a v : Word) (s t : State) : Prop where
  stored : t.memRead a = v
  memory : SameMemoryBut a s t
  regs : SameRegsBut [] s t
  flags : t.flags = s.flags
  pc : t.pc = s.pc
  console : SameConsole s t
  control : SameControl s t

/-- What a control transfer does: the pc holds the target, the registers in `links` may change, and nothing else
does. -/
structure Transfers (target : Word) (links : List Reg) (s t : State) : Prop where
  pc : t.pc = target
  regs : SameRegsBut links s t
  flags : t.flags = s.flags
  memory : SameMemory s t
  console : SameConsole s t
  control : SameControl s t

/-- What every completed trap routine keeps: R7 holds the incremented pc, the pc is that value, registers other than
R7 and those in `rs` keep theirs, memory and the parameters do not change, nothing is left in progress (R120, R129). -/
structure TrapCompletes (rs : List Reg) (s t : State) : Prop where
  link : t.reg 7 = s.pc
  pc : t.pc = s.pc
  regs : SameRegsBut (7 :: rs) s t
  memory : SameMemory s t
  params : t.params = s.params
  draws : t.draws = s.draws
  progress : t.progress = .idle

/-- What a TRAP that has not completed leaves alone: registers, flags, memory, run state and stop reason; the pc is
the TRAP's own address, one before the incremented one (R75, R151). -/
structure TrapUnfinished (p : Progress) (s t : State) : Prop where
  pc : t.pc = s.pc - 1
  regs : SameRegsBut [] s t
  flags : t.flags = s.flags
  memory : SameMemory s t
  runState : t.runState = s.runState
  stopReason : t.stopReason = s.stopReason
  params : t.params = s.params
  draws : t.draws = s.draws
  progress : t.progress = p

/-- The console after a TRAP that wrote `bytes` and took `taken` input bytes, with `answers` still to come. -/
structure ConsoleAfter (bytes : List Byte) (taken : Nat) (answers : List ReadAnswer) (s t : State) : Prop where
  out : t.out = s.out ++ bytes
  inConsumed : t.inConsumed = s.inConsumed + taken
  hostReads : t.hostReads = answers
  writeBudget : t.writeBudget = s.writeBudget.map (· - bytes.length)

/-- What is exact after an error (R145): HALTED, the reason, and the console history. The bytes the failing
instruction delivered before the error are `delivered`; it took `taken` input bytes. -/
structure StopsWith (reason : StopReason) (delivered : List Byte) (taken : Nat) (s t : State) : Prop where
  runState : t.runState = .halted
  stopReason : t.stopReason = reason
  out : t.out = s.out ++ delivered
  inConsumed : t.inConsumed = s.inConsumed + taken
  params : t.params = s.params

/-! ### Strings -/

/-- The string PUTS and PUTSP read from address `a`: its first `k` words are not zero and the next one is. Address
sums wrap (R31, R124). -/
def StringOf (s : State) (a : Word) (k : Nat) : Prop :=
  (∀ j, j < k → s.memRead (a + BitVec.ofNat 16 j) ≠ 0) ∧ s.memRead (a + BitVec.ofNat 16 k) = 0

/-- The first `k` words from address `a` on. -/
def wordsFrom (s : State) (a : Word) (k : Nat) : List Word :=
  (List.range k).map fun j => s.memRead (a + BitVec.ofNat 16 j)

/-- What PUTS writes for a word (R124). -/
def putsText (w : Word) : List Byte := [BitVec.ofNat 8 (w.toNat % 256)]

/-- What PUTSP writes for a word: the low byte, then the high byte if it is not zero (R126). -/
def putspText (w : Word) : List Byte :=
  BitVec.ofNat 8 (w.toNat % 256) :: if w.toNat / 256 = 0 then [] else [BitVec.ofNat 8 (w.toNat / 256)]

/-- The answers that are bytes (R150). -/
def ReadAnswer.isByte : ReadAnswer → Bool
  | .byte _ => true
  | .failed | .notYet => false

/-! ### The invariant -/

/-- The instruction an unfinished step is in the middle of (R75). -/
def Progress.instr : Progress → Option Instr
  | .idle => none
  | .getcHeld => some .trapGetc
  | .inHeld => some .trapIn
  | .putsUnended => some .trapPuts
  | .putspUnended => some .trapPutsp

/-- A sound state. -/
structure State.Inv (s : State) : Prop where
  /-- Memory is in its canonical form. -/
  memory : s.mem.wf
  /-- `stop_reason` is `NONE` exactly when the machine is RUNNING (R18, D11). -/
  stopped : s.stopReason = .none ↔ s.runState = .running
  /-- At most one flag is true, unless an error has left the flags UNSPECIFIED (R13, R145). -/
  flags : s.stopReason.isError = false → s.flags.exclusive = true
  /-- An instruction in progress is the one at the pc, and the machine is running it (R75). -/
  progress : ∀ i, s.progress.instr = some i → s.runState = .running ∧ decodeWord s.fetch = i

end Machine

end Sys2Proof
end

