-- ==== Sys2Proof/Certificates/Slice0/Obligations.lean ====
section
/-! DEFINITION. The statements for the provers, from the spec's numbered rules. A statement about an instruction says
of `exec` that it answers a next state, what that state holds, and what it leaves alone; `s` is the state after the
fetch, so `s.pc` is the incremented pc. Statements that rest on a decision of the spec (D<n>) or on a choice of the
model name it. -/

open Sys2Proof Sys2Proof.Machine

/-! ### Encoding (30_encoding.md) -/

/-- Words of 95_test_vectors.md, and 0x2406 of 43_load.md R100's example, decode to the instructions the spec names.
They rest on the opcode values (D1, notes/assumptions/6.md), on the places of n, z and p (notes/assumptions/14.md), on
the reserved values (D2, notes/assumptions/12.md) and, for words with odd unread bits, on D3
(notes/assumptions/13.md). -/
def Obligations.SampleWordsDecode : Prop :=
  decodeWord 0x0900 = .br true false false 0x100 ∧ decodeWord 0x0405 = .br false true false 5 ∧
  decodeWord 0x03FD = .br false false true 0x1FD ∧ decodeWord 0x1025 = .addImm 0 0 5 ∧
  decodeWord 0x105A = .addReg 0 1 2 ∧ decodeWord 0x2406 = .ld 2 6 ∧ decodeWord 0x3202 = .st 1 2 ∧
  decodeWord 0x4803 = .jsr 3 ∧ decodeWord 0x4080 = .jsrr 2 ∧ decodeWord 0x527F = .andImm 1 1 31 ∧
  decodeWord 0x645F = .ldr 2 1 31 ∧ decodeWord 0x7440 = .str 2 1 0 ∧ decodeWord 0x94BF = .not 2 2 ∧
  decodeWord 0xA608 = .ldi 3 8 ∧ decodeWord 0xB608 = .sti 3 8 ∧ decodeWord 0xC1C0 = .jmp 7 ∧
  decodeWord 0xE1FF = .lea 0 0x1FF ∧ decodeWord 0xF125 = .trapHalt ∧ decodeWord 0xF026 = .trap 0x26 ∧
  decodeWord 0x8000 = .reserved8 ∧ decodeWord 0xDFFF = .reservedD

/-- Decoding the word of any well-formed instruction gives it back, with every operand at every value. -/
def Obligations.DecodeInvertsEncode : Prop :=
  ∀ i : Instr, i.wf = true → decodeWord (encode i) = i

/-- Every word decodes to a well-formed instruction (R55), whose word agrees with it on every bit some rule reads
(R57, D3). -/
def Obligations.EncodeKeepsReadBits : Prop :=
  ∀ w : Word, (decodeWord w).wf = true ∧
    ∀ k, k < 16 → (decodeWord w).unreadBit k = false → (encode (decodeWord w)).getLsbD k = w.getLsbD k

/-- The bits R57 lists never change what a word decodes to (D3). -/
def Obligations.UnreadBitsNeverMatter : Prop :=
  ∀ w v : Word, (∀ k, k < 16 → (decodeWord w).unreadBit k = false → v.getLsbD k = w.getLsbD k) →
    decodeWord v = decodeWord w

/-- `ir[15:12]` selects the instruction by the map of R54 (D1); the reserved opcodes are exactly 0x8 and 0xD (R56,
D2). -/
def Obligations.OpcodeFieldSelectsInstruction : Prop :=
  ∀ w : Word, (decodeWord w).opcode = w.extractLsb' 12 4 ∧
    (decodeWord w = .reserved8 ↔ w.toNat / 4096 = 8) ∧ (decodeWord w = .reservedD ↔ w.toNat / 4096 = 13)

/-- R52: `sext_N` by its pseudocode, for every N, and its idempotence. -/
def Obligations.SextReplicatesTopBit : Prop :=
  ∀ n, 1 ≤ n → n ≤ 16 → ∀ v : BitVec n,
    (sext v).toNat =
      (if v.toNat.testBit (n - 1) then (v.toNat ||| (0xFFFF <<< n)) &&& 0xFFFF else v.toNat) ∧
    sext ((sext v).setWidth n) = sext v

/-! ### Flags (10_state.md) -/

/-- R14: `setcc(v)` by its pseudocode and by the signed reading; it changes the flags only. -/
def Obligations.SetccReadsTheSign : Prop :=
  ∀ (s : State) (v : Word),
    s.setcc v = { s with flags := (s.setcc v).flags } ∧
    (s.setcc v).flags.Reads v ∧
    (v = 0x0000 → (s.setcc v).flags = { n := false, z := true, p := false }) ∧
    (v ≠ 0x0000 → v.getLsbD 15 = true → (s.setcc v).flags = { n := true, z := false, p := false }) ∧
    (v ≠ 0x0000 → v.getLsbD 15 = false → (s.setcc v).flags = { n := false, z := false, p := true })

/-! ### Operate instructions (41_operate.md) -/

/-- R80: ADD in both modes: the sum modulo 2^16, the flags, the frame, and the operands' fields. (The opcode value of
R80's encoding is D1's, stated in OpcodeFieldSelectsInstruction.) -/
def Obligations.AddWritesSum : Prop :=
  (∀ (dr sr1 sr2 : Reg) (s : State), ∃ t, exec (.addReg dr sr1 sr2) s = .next t ∧
    WritesResult dr (BitVec.ofNat 16 ((s.reg sr1).toNat + (s.reg sr2).toNat)) s t) ∧
  (∀ (dr sr1 : Reg) (imm5 : BitVec 5) (s : State), ∃ t, exec (.addImm dr sr1 imm5) s = .next t ∧
    WritesResult dr (BitVec.ofInt 16 ((s.reg sr1).toInt + imm5.toInt)) s t) ∧
  (∀ (w : Word) (dr sr1 sr2 : Reg), decodeWord w = .addReg dr sr1 sr2 →
    w.getLsbD 5 = false ∧ Names dr w 9 ∧ Names sr1 w 6 ∧ Names sr2 w 0) ∧
  (∀ (w : Word) (dr sr1 : Reg) (imm5 : BitVec 5), decodeWord w = .addImm dr sr1 imm5 →
    w.getLsbD 5 = true ∧ Names dr w 9 ∧ Names sr1 w 6 ∧ imm5.toNat = w.toNat % 32)

/-- R81: AND in both modes, the immediate sign-extended first. (Opcode value: D1.) -/
def Obligations.AndWritesConjunction : Prop :=
  (∀ (dr sr1 sr2 : Reg) (s : State), ∃ t, exec (.andReg dr sr1 sr2) s = .next t ∧
    WritesResult dr (BitVec.ofNat 16 ((s.reg sr1).toNat &&& (s.reg sr2).toNat)) s t) ∧
  (∀ (dr sr1 : Reg) (imm5 : BitVec 5) (s : State), ∃ t, exec (.andImm dr sr1 imm5) s = .next t ∧
    WritesResult dr (s.reg sr1 &&& BitVec.ofInt 16 imm5.toInt) s t) ∧
  (∀ (w : Word) (dr sr1 sr2 : Reg), decodeWord w = .andReg dr sr1 sr2 →
    w.getLsbD 5 = false ∧ Names dr w 9 ∧ Names sr1 w 6 ∧ Names sr2 w 0) ∧
  (∀ (w : Word) (dr sr1 : Reg) (imm5 : BitVec 5), decodeWord w = .andImm dr sr1 imm5 →
    w.getLsbD 5 = true ∧ Names dr w 9 ∧ Names sr1 w 6 ∧ imm5.toNat = w.toNat % 32)

/-- R82: NOT. (Opcode value: D1.) -/
def Obligations.NotWritesComplement : Prop :=
  (∀ (dr sr : Reg) (s : State), ∃ t, exec (.not dr sr) s = .next t ∧
    WritesResult dr (BitVec.ofNat 16 (65535 - (s.reg sr).toNat)) s t) ∧
  (∀ (w : Word) (dr sr : Reg), decodeWord w = .not dr sr → Names dr w 9 ∧ Names sr w 6)

/-- R80, R81: ADD and AND give the same state in either mode when the immediate equals the register's value. -/
def Obligations.ImmediateAndRegisterModesAgree : Prop :=
  ∀ (dr sr1 sr2 : Reg) (imm5 : BitVec 5) (s : State), (s.reg sr2).toInt = imm5.toInt →
    exec (.addImm dr sr1 imm5) s = exec (.addReg dr sr1 sr2) s ∧
    exec (.andImm dr sr1 imm5) s = exec (.andReg dr sr1 sr2) s

/-- R83: `a + (NOT b) + 1` forms the difference modulo 2^16: NOT, ADD and ADD #1 into a scratch register. -/
def Obligations.SubtractionIsAddNotPlusOne : Prop :=
  ∀ (a b d : Reg) (s : State), a ≠ d → ∃ t u v,
    exec (.not d b) s = .next t ∧ exec (.addReg d a d) t = .next u ∧ exec (.addImm d d 1) u = .next v ∧
    (v.reg d).toNat = ((s.reg a).toNat + (65536 - (s.reg b).toNat)) % 65536 ∧
    v.flags.Reads (BitVec.ofInt 16 ((s.reg a).toInt - (s.reg b).toInt))

/-! ### Control transfer (42_control.md) -/

/-- R90: BR goes to `pc + sext_9(PCoffset9)` when a tested flag is true, and on otherwise; n, z, p are bits 11, 10, 9
of the word (the spec's reading, notes/assumptions/14.md) and the offset is its low nine bits. (Opcode value: D1.) -/
def Obligations.BrAddsOffsetWhenTestedFlagSet : Prop :=
  (∀ (n z p : Bool) (off : BitVec 9) (s : State), ∃ t, exec (.br n z p off) s = .next t ∧
    Transfers (if n = true ∧ s.flags.n = true ∨ z = true ∧ s.flags.z = true ∨ p = true ∧ s.flags.p = true
      then offsetBy s.pc off else s.pc) [] s t) ∧
  (∀ (w : Word) (n z p : Bool) (off : BitVec 9), decodeWord w = .br n z p off →
    n = w.getLsbD 11 ∧ z = w.getLsbD 10 ∧ p = w.getLsbD 9 ∧ off.toNat = w.toNat % 512)

/-- R77: a branch to itself runs for ever (the word 0x0FFF is BRnzp #-1, D1). -/
def Obligations.BranchToSelfNeverEnds : Prop :=
  ∀ (s : State) (n : Nat), s.runState = .running → s.memRead s.pc = 0x0FFF →
    (s.flags.n = true ∨ s.flags.z = true ∨ s.flags.p = true) → core.run n s = .next s

/-- R91: JMP. (Opcode value: D1.) -/
def Obligations.JmpGoesToBase : Prop :=
  (∀ (base : Reg) (s : State), ∃ t, exec (.jmp base) s = .next t ∧ Transfers (s.reg base) [] s t) ∧
  (∀ (w : Word) (base : Reg), decodeWord w = .jmp base → Names base w 6)

/-- R93: JSR links the incremented pc in R7 and goes to `pc + sext_11(PCoffset11)`. (Opcode value: D1.) -/
def Obligations.JsrLinksAndJumps : Prop :=
  (∀ (off : BitVec 11) (s : State), ∃ t, exec (.jsr off) s = .next t ∧
    t.reg 7 = s.pc ∧ Transfers (offsetBy s.pc off) [7] s t) ∧
  (∀ (w : Word) (off : BitVec 11), decodeWord w = .jsr off → w.getLsbD 11 = true ∧ off.toNat = w.toNat % 2048)

/-- R94: JSRR, for both values of `jsrr_base_read_first` (D4). With the default order, JSRR R7 goes on at the
incremented pc. -/
def Obligations.JsrrLinksAndJumps : Prop :=
  (∀ (base : Reg) (s : State), s.params.jsrrBaseReadFirst = false → ∃ t, exec (.jsrr base) s = .next t ∧
    t.reg 7 = s.pc ∧ Transfers (if base = 7 then s.pc else s.reg base) [7] s t) ∧
  (∀ (base : Reg) (s : State), s.params.jsrrBaseReadFirst = true → ∃ t, exec (.jsrr base) s = .next t ∧
    t.reg 7 = s.pc ∧ Transfers (s.reg base) [7] s t) ∧
  (∀ (w : Word) (base : Reg), decodeWord w = .jsrr base → w.getLsbD 11 = false ∧ Names base w 6)

/-! ### Loads (43_load.md) -/

/-- R100: LD. (Opcode value: D1.) -/
def Obligations.LdLoadsPcRelative : Prop :=
  (∀ (dr : Reg) (off : BitVec 9) (s : State), ∃ t, exec (.ld dr off) s = .next t ∧
    WritesResult dr (s.memRead (offsetBy s.pc off)) s t) ∧
  (∀ (w : Word) (dr : Reg) (off : BitVec 9), decodeWord w = .ld dr off →
    Names dr w 9 ∧ off.toNat = w.toNat % 512)

/-- R101: LDI dereferences twice. (Opcode value: D1.) -/
def Obligations.LdiDereferencesTwice : Prop :=
  (∀ (dr : Reg) (off : BitVec 9) (s : State), ∃ t, exec (.ldi dr off) s = .next t ∧
    WritesResult dr (s.memRead (s.memRead (offsetBy s.pc off))) s t) ∧
  (∀ (w : Word) (dr : Reg) (off : BitVec 9), decodeWord w = .ldi dr off →
    Names dr w 9 ∧ off.toNat = w.toNat % 512)

/-- R102: LDR; the base is read before DR is written. (Opcode value: D1.) -/
def Obligations.LdrLoadsBaseOffset : Prop :=
  (∀ (dr base : Reg) (off : BitVec 6) (s : State), ∃ t, exec (.ldr dr base off) s = .next t ∧
    WritesResult dr (s.memRead (offsetBy (s.reg base) off)) s t) ∧
  (∀ (w : Word) (dr base : Reg) (off : BitVec 6), decodeWord w = .ldr dr base off →
    Names dr w 9 ∧ Names base w 6 ∧ off.toNat = w.toNat % 64)

/-- R103: LEA gives the address itself and sets the flags from it. (Opcode value: D1.) -/
def Obligations.LeaGivesAddress : Prop :=
  (∀ (dr : Reg) (off : BitVec 9) (s : State), ∃ t, exec (.lea dr off) s = .next t ∧
    WritesResult dr (offsetBy s.pc off) s t) ∧
  (∀ (w : Word) (dr : Reg) (off : BitVec 9), decodeWord w = .lea dr off →
    Names dr w 9 ∧ off.toNat = w.toNat % 512)

/-! ### Stores (44_store.md) and memory (20_memory.md) -/

/-- R110: ST stores at `pc + sext_9(PCoffset9)`, and every other word reads as before. (Opcode value: D1.) -/
def Obligations.StStoresPcRelative : Prop :=
  (∀ (sr : Reg) (off : BitVec 9) (s : State), s.pcRelative off = offsetBy s.pc off ∧
    ∃ t, exec (.st sr off) s = .next t ∧ WritesMemory (s.pcRelative off) (s.reg sr) s t) ∧
  (∀ (w : Word) (sr : Reg) (off : BitVec 9), decodeWord w = .st sr off →
    Names sr w 9 ∧ off.toNat = w.toNat % 512)

/-- R111: STI reads the pointer and stores through it. (Opcode value: D1.) -/
def Obligations.StiStoresThroughPointer : Prop :=
  (∀ (sr : Reg) (off : BitVec 9) (s : State), s.indirect off = s.memRead (offsetBy s.pc off) ∧
    ∃ t, exec (.sti sr off) s = .next t ∧ WritesMemory (s.indirect off) (s.reg sr) s t) ∧
  (∀ (w : Word) (sr : Reg) (off : BitVec 9), decodeWord w = .sti sr off →
    Names sr w 9 ∧ off.toNat = w.toNat % 512)

/-- R112: STR stores at `x[BaseR] + sext_6(offset6)`. (Opcode value: D1.) -/
def Obligations.StrStoresBaseOffset : Prop :=
  (∀ (sr base : Reg) (off : BitVec 6) (s : State), s.baseOffset base off = offsetBy (s.reg base) off ∧
    ∃ t, exec (.str sr base off) s = .next t ∧ WritesMemory (s.baseOffset base off) (s.reg sr) s t) ∧
  (∀ (w : Word) (sr base : Reg) (off : BitVec 6), decodeWord w = .str sr base off →
    Names sr w 9 ∧ Names base w 6 ∧ off.toNat = w.toNat % 64)

/-- R31: the pc increment and every effective address are reduced modulo 65,536. -/
def Obligations.AddressSumsWrap : Prop :=
  ∀ (s : State) (base : Reg) (off9 : BitVec 9) (off11 : BitVec 11) (off6 : BitVec 6),
    s.advance.pc.toNat = (s.pc.toNat + 1) % 65536 ∧
    ((s.pcRelative off9).toNat : Int) = (s.pc.toNat + off9.toInt) % 65536 ∧
    ((s.pcRelative off11).toNat : Int) = (s.pc.toNat + off11.toInt) % 65536 ∧
    ((s.baseOffset base off6).toNat : Int) = ((s.reg base).toNat + off6.toInt) % 65536

/-- R32, R33, R39: the word a store wrote is what LD, LDR and (through a pointer to it) LDI then load from there. -/
def Obligations.StoredWordIsLoadedBack : Prop :=
  ∀ (i : Instr) (s t : State) (a v : Word), storesTo i s = some (a, v) → exec i s = .next t →
    ∀ (dr base : Reg) (off9 : BitVec 9) (off6 : BitVec 6) (pc : Word),
      ((t.setPc pc).pcRelative off9 = a →
        ∃ u, exec (.ld dr off9) (t.setPc pc) = .next u ∧ u.reg dr = v) ∧
      (t.baseOffset base off6 = a → ∃ u, exec (.ldr dr base off6) t = .next u ∧ u.reg dr = v) ∧
      ((t.setPc pc).indirect off9 = a →
        ∃ u, exec (.ldi dr off9) (t.setPc pc) = .next u ∧ u.reg dr = v)

/-- R42, R165: a store to the next instruction's address is what the next step fetches and runs. -/
def Obligations.StoreIsSeenByNextFetch : Prop :=
  ∀ (s : State) (v : Word), s.runState = .running →
    storesTo (decodeWord s.fetch) s.advance = some (s.pc + 1, v) →
    ∃ t, step s = .next t ∧ t.pc = s.pc + 1 ∧ t.memRead t.pc = v ∧
      step t = exec (decodeWord v) { t with pc := s.pc + 2 }

/-! ### TRAP (45_trap.md)

What the host answers to a read and how many writes it accepts stand in the state (notes/assumptions/5.md) in every
statement below. -/

/-- R121's dispatch table, R120 and R55: `ir[7:0]` of a TRAP word selects the routine, 0x20 to 0x25 the six in their
order; and a TRAP word does what TRAP with its vector does, whichever constructor it decodes to. (Opcode value: D1,
notes/assumptions/6.md; bits [11:8]: D3, notes/assumptions/13.md.) -/
def Obligations.TrapWordsDispatchByVector : Prop :=
  (∀ w : Word,
    (decodeWord w = .trapGetc ↔ w.extractLsb' 12 4 = 0xF ∧ w.extractLsb' 0 8 = 0x20) ∧
    (decodeWord w = .trapOut ↔ w.extractLsb' 12 4 = 0xF ∧ w.extractLsb' 0 8 = 0x21) ∧
    (decodeWord w = .trapPuts ↔ w.extractLsb' 12 4 = 0xF ∧ w.extractLsb' 0 8 = 0x22) ∧
    (decodeWord w = .trapIn ↔ w.extractLsb' 12 4 = 0xF ∧ w.extractLsb' 0 8 = 0x23) ∧
    (decodeWord w = .trapPutsp ↔ w.extractLsb' 12 4 = 0xF ∧ w.extractLsb' 0 8 = 0x24) ∧
    (decodeWord w = .trapHalt ↔ w.extractLsb' 12 4 = 0xF ∧ w.extractLsb' 0 8 = 0x25)) ∧
  (∀ (w : Word) (s : State), w.extractLsb' 12 4 = 0xF →
    exec (decodeWord w) s = exec (.trap (w.extractLsb' 0 8)) s)

/-- R143: any other vector halts the machine with the vector as reason; the console is untouched. -/
def Obligations.UndefinedVectorHalts : Prop :=
  (∀ (v : BitVec 8) (s : State), v.toNat < 0x20 ∨ 0x25 < v.toNat → ∃ t, exec (.trap v) s = .next t ∧
    StopsWith (.undefinedTrapVector v) [] 0 s t) ∧
  (∀ (w : Word) (v : BitVec 8), decodeWord w = .trap v →
    v.toNat = w.toNat % 256 ∧ (v.toNat < 0x20 ∨ 0x25 < v.toNat))

/-- R122: GETC completes with the host's next byte in R0, zero-extended, the flags read from it, no echo. -/
def Obligations.GetcDeliversByte : Prop :=
  ∀ (s : State) (b : Byte) (rest : List ReadAnswer), s.hostReads = .byte b :: rest →
    ∃ t, exec .trapGetc s = .next t ∧ TrapCompletes [0] s t ∧ t.reg 0 = BitVec.ofNat 16 b.toNat ∧
      t.flags.Reads (BitVec.ofNat 16 b.toNat) ∧ ConsoleAfter [] 1 rest s t ∧
      t.runState = s.runState ∧ t.stopReason = s.stopReason

/-- R122, R151 (D23): with no byte yet GETC is held: nothing of the spec's state changes, and the pc is the TRAP's own
address. -/
def Obligations.GetcHoldsWithoutByte : Prop :=
  ∀ (s : State) (rest : List ReadAnswer), s.hostReads = [] ∧ rest = [] ∨ s.hostReads = .notYet :: rest →
    ∃ t, exec .trapGetc s = .next t ∧ TrapUnfinished .getcHeld s t ∧ ConsoleAfter [] 0 rest s t

/-- R122, R75, R152: a GETC the host never answers stays held through any number of steps. -/
def Obligations.UnansweredGetcStaysHeld : Prop :=
  ∀ (s : State) (n : Nat), s.runState = .running → decodeWord s.fetch = .trapGetc → s.hostReads = [] →
    ∃ t, core.run n s = .next t ∧ t = { s with progress := t.progress }

/-- R144, R122: a failed read (end of input included, D13) halts GETC with IO_READ_ERROR. -/
def Obligations.GetcReadFailureHalts : Prop :=
  ∀ (s : State) (rest : List ReadAnswer), s.hostReads = .failed :: rest →
    ∃ t, exec .trapGetc s = .next t ∧ StopsWith .ioReadError [] 0 s t

/-- R123, R120, R129, R144, R145: OUT writes the low byte of R0, and nothing else changes but R7; a failed write halts.
(What the host accepts stands in the state: notes/assumptions/5.md.) -/
def Obligations.OutWritesLowByte : Prop :=
  (∀ s : State, s.accepts 1 = true → ∃ t, exec .trapOut s = .next t ∧ TrapCompletes [] s t ∧
    t.flags = s.flags ∧ ConsoleAfter [BitVec.ofNat 8 ((s.reg 0).toNat % 256)] 0 s.hostReads s t ∧
    t.runState = s.runState ∧ t.stopReason = s.stopReason) ∧
  (∀ s : State, s.writeBudget = some 0 → ∃ t, exec .trapOut s = .next t ∧ StopsWith .ioWriteError [] 0 s t)

/-- R124 (D16 for the wrap): PUTS writes the low byte of every word from R0 up to the first zero word, and stops
before it. -/
def Obligations.PutsWritesString : Prop :=
  ∀ (s : State) (k : Nat), k < 65536 → StringOf s (s.reg 0) k → s.accepts k = true →
    ∃ t, exec .trapPuts s = .next t ∧ TrapCompletes [] s t ∧ t.flags = s.flags ∧
      ConsoleAfter ((wordsFrom s (s.reg 0) k).flatMap putsText) 0 s.hostReads s t ∧
      t.runState = s.runState ∧ t.stopReason = s.stopReason

/-- R126 (D16, D25): PUTSP writes, for every word up to the first zero word, the low byte and then the high byte if
it is not zero. -/
def Obligations.PutspWritesString : Prop :=
  ∀ (s : State) (k : Nat), k < 65536 → StringOf s (s.reg 0) k →
    s.accepts ((wordsFrom s (s.reg 0) k).flatMap putspText).length = true →
    ∃ t, exec .trapPutsp s = .next t ∧ TrapCompletes [] s t ∧ t.flags = s.flags ∧
      ConsoleAfter ((wordsFrom s (s.reg 0) k).flatMap putspText) 0 s.hostReads s t ∧
      t.runState = s.runState ∧ t.stopReason = s.stopReason

/-- R144, R146, R124, R126: when the host's budget ends inside the string, exactly the bytes before the failed write
are in the history, and the machine halts with IO_WRITE_ERROR. The string may have an end or none. -/
def Obligations.StringWriteFailureHalts : Prop :=
  ∀ (s : State) (k j : Nat), (k < 65536 ∧ StringOf s (s.reg 0) k ∨ k = 65536 ∧ ∀ a, s.memRead a ≠ 0) →
    s.writeBudget = some j →
    (j < ((wordsFrom s (s.reg 0) k).flatMap putsText).length → ∃ t, exec .trapPuts s = .next t ∧
      StopsWith .ioWriteError (((wordsFrom s (s.reg 0) k).flatMap putsText).take j) 0 s t) ∧
    (j < ((wordsFrom s (s.reg 0) k).flatMap putspText).length → ∃ t, exec .trapPutsp s = .next t ∧
      StopsWith .ioWriteError (((wordsFrom s (s.reg 0) k).flatMap putspText).take j) 0 s t)

/-- R124, R126, R75 (D16): with no zero word in memory PUTS and PUTSP never complete. After any number of steps the
machine is RUNNING at the same TRAP, and all that has changed is the output: the bytes of all the words from R0 on,
once a step. (That one step writes one pass over memory is the model's choice, notes/assumptions/10.md.) -/
def Obligations.UnendedStringIsWrittenForever : Prop :=
  ∀ (s : State) (n : Nat), s.runState = .running → s.writeBudget = none → (∀ a, s.memRead a ≠ 0) →
    (decodeWord s.fetch = .trapPuts → ∃ t, core.run n s = .next t ∧
      t = { s with
        progress := t.progress
        out := s.out ++ (List.replicate n ((wordsFrom s (s.reg 0) 65536).flatMap putsText)).flatten }) ∧
    (decodeWord s.fetch = .trapPutsp → ∃ t, core.run n s = .next t ∧
      t = { s with
        progress := t.progress
        out := s.out ++ (List.replicate n ((wordsFrom s (s.reg 0) 65536).flatMap putspText)).flatten })

/-- R124, R126, R75 (D16): over memory with no zero word, a pass that the host accepts all of, whatever it accepts
after it, leaves PUTS and PUTSP uncompleted: the bytes of the pass are written, the host's budget has shrunk by them,
and the next step goes on with the same TRAP. A write that fails in a later pass is then StringWriteFailureHalts'
case. (The cut into passes is notes/assumptions/10.md, the budget 5.md.) -/
def Obligations.StringPassWithinBudgetGoesOn : Prop :=
  ∀ s : State, (∀ a, s.memRead a ≠ 0) →
    (s.accepts ((wordsFrom s (s.reg 0) 65536).flatMap putsText).length = true →
      ∃ t, exec .trapPuts s = .next t ∧ TrapUnfinished .putsUnended s t ∧
        ConsoleAfter ((wordsFrom s (s.reg 0) 65536).flatMap putsText) 0 s.hostReads s t) ∧
    (s.accepts ((wordsFrom s (s.reg 0) 65536).flatMap putspText).length = true →
      ∃ t, exec .trapPutsp s = .next t ∧ TrapUnfinished .putspUnended s t ∧
        ConsoleAfter ((wordsFrom s (s.reg 0) 65536).flatMap putspText) 0 s.hostReads s t)

/-- R125 (D14, D15): IN writes the prompt unless it was held after writing it, reads a byte, echoes it and delivers it
to R0, for every prompt. -/
def Obligations.InPromptsReadsAndEchoes : Prop :=
  ∀ (s : State) (b : Byte) (rest : List ReadAnswer) (prompt : List Byte),
    prompt = (if s.progress = .inHeld then [] else s.params.inPrompt) →
    s.hostReads = .byte b :: rest → s.accepts (prompt.length + 1) = true →
    ∃ t, exec .trapIn s = .next t ∧ TrapCompletes [0] s t ∧ t.reg 0 = BitVec.ofNat 16 b.toNat ∧
      t.flags.Reads (BitVec.ofNat 16 b.toNat) ∧ ConsoleAfter (prompt ++ [b]) 1 rest s t ∧
      t.runState = s.runState ∧ t.stopReason = s.stopReason

/-- R125, R128, R151 (D23): with no byte yet IN has delivered its prompt and is held. -/
def Obligations.InHoldsAfterPrompt : Prop :=
  ∀ (s : State) (rest : List ReadAnswer) (prompt : List Byte),
    prompt = (if s.progress = .inHeld then [] else s.params.inPrompt) →
    (s.hostReads = [] ∧ rest = [] ∨ s.hostReads = .notYet :: rest) → s.accepts prompt.length = true →
    ∃ t, exec .trapIn s = .next t ∧ TrapUnfinished .inHeld s t ∧ ConsoleAfter prompt 0 rest s t

/-- R125, R144, R146: in IN a failed prompt write comes before the read, a failed read (D13) before the echo, and a
failed echo last; each keeps what was delivered before it. -/
def Obligations.InErrorsComeInOrder : Prop :=
  ∀ (s : State) (rest : List ReadAnswer) (prompt : List Byte),
    prompt = (if s.progress = .inHeld then [] else s.params.inPrompt) →
    (∀ k, s.writeBudget = some k → k < prompt.length → ∃ t, exec .trapIn s = .next t ∧
      StopsWith .ioWriteError (prompt.take k) 0 s t) ∧
    (s.hostReads = .failed :: rest → s.accepts prompt.length = true → ∃ t, exec .trapIn s = .next t ∧
      StopsWith .ioReadError prompt 0 s t) ∧
    (∀ b, s.hostReads = .byte b :: rest → s.writeBudget = some prompt.length →
      ∃ t, exec .trapIn s = .next t ∧ StopsWith .ioWriteError prompt 1 s t)

/-- R127, R120: HALT halts with HALT_TRAP; R7 and pc hold the incremented pc; no flag, no other register, no memory
and no console effect (the last is D17). -/
def Obligations.HaltTrapStops : Prop :=
  ∀ s : State, ∃ t, exec .trapHalt s = .next t ∧ t.runState = .halted ∧ t.stopReason = .haltTrap ∧
    TrapCompletes [] s t ∧ t.flags = s.flags ∧ SameConsole s t

/-- R129: what the six routines write, when their TRAP completes. -/
def Obligations.TrapRoutinesTouchOnlyListedState : Prop :=
  ∀ (i : Instr) (s t : State), exec i s = .next t → t.stopReason.isError = false → t.progress = .idle →
    (i = .trapGetc → SameRegsBut [0, 7] s t ∧ SameMemory s t ∧ t.pc = s.pc ∧ t.out = s.out ∧
      t.runState = s.runState ∧ t.stopReason = s.stopReason) ∧
    (i = .trapIn → SameRegsBut [0, 7] s t ∧ SameMemory s t ∧ t.pc = s.pc ∧
      t.runState = s.runState ∧ t.stopReason = s.stopReason) ∧
    (i = .trapOut ∨ i = .trapPuts ∨ i = .trapPutsp → SameRegsBut [7] s t ∧ SameMemory s t ∧ t.pc = s.pc ∧
      t.flags = s.flags ∧ t.inConsumed = s.inConsumed ∧ t.hostReads = s.hostReads ∧
      t.runState = s.runState ∧ t.stopReason = s.stopReason) ∧
    (i = .trapHalt → SameRegsBut [7] s t ∧ SameMemory s t ∧ t.pc = s.pc ∧ t.flags = s.flags ∧ SameConsole s t)

/-! ### Errors (60_exceptions.md) -/

/-- R142 (D2): the reserved opcodes halt the machine with the opcode as reason, before any other effect on the
console. -/
def Obligations.ReservedOpcodesHalt : Prop :=
  ∀ s : State,
    (∃ t, exec .reserved8 s = .next t ∧ StopsWith (.reservedOpcode 0x8) [] 0 s t) ∧
    (∃ t, exec .reservedD s = .next t ∧ StopsWith (.reservedOpcode 0xD) [] 0 s t)

/-! ### The step (40_cycle.md) -/

/-- R71: a running step fetches the word at the pc, increments the pc, decodes the word and executes it; and R70's
guard comes first. -/
def Obligations.StepRunsDecodedInstruction : Prop :=
  ∀ s : State,
    (s.runState = .running → step s = exec (decodeWord (s.memRead s.pc)) { s with pc := s.pc + 1 }) ∧
    (s.runState = .halted → step s = .next s)

/-- R70: a halted machine stays as it is through any number of steps. -/
def Obligations.HaltedMachineStaysHalted : Prop :=
  ∀ (s : State) (n : Nat), s.runState = .halted → core.run n s = .next s

/-- Every step from every state answers a next state; nothing faults and nothing is refused. No decode, fetch or memory
access faults (R55, R31, R72) and every error is a halt (R141); that a step which R75 lets be held or never end answers
a next state too is the model's choice (notes/assumptions/10.md). -/
def Obligations.EveryStepAnswersNext : Prop :=
  ∀ s : State, ∃ t, step s = .next t

/-- R17, R18, R141 to R144: the machine is RUNNING after reset, a halt comes from the HALT trap, a decode error or an
I/O error of the instruction at the pc, and there is no way back. That a halt carries its reason in stop_reason is the
spec's decision D11 (notes/assumptions/23.md). -/
def Obligations.HaltingHasAListedCause : Prop :=
  State.reset.runState = .running ∧
  ∀ s t : State, step s = .next t →
    (s.runState = .halted → t = s) ∧
    (s.runState = .running → t.runState = .halted →
      (t.stopReason = .haltTrap ∧ decodeWord s.fetch = .trapHalt) ∨
      (t.stopReason = .reservedOpcode (s.fetch.extractLsb' 12 4) ∧
        (decodeWord s.fetch = .reserved8 ∨ decodeWord s.fetch = .reservedD)) ∨
      (t.stopReason = .undefinedTrapVector (s.fetch.extractLsb' 0 8) ∧
        decodeWord s.fetch = .trap (s.fetch.extractLsb' 0 8)) ∨
      (t.stopReason = .ioReadError ∧ (decodeWord s.fetch = .trapGetc ∨ decodeWord s.fetch = .trapIn)) ∨
      (t.stopReason = .ioWriteError ∧ (decodeWord s.fetch = .trapOut ∨ decodeWord s.fetch = .trapPuts ∨
        decodeWord s.fetch = .trapPutsp ∨ decodeWord s.fetch = .trapIn)))

/-- R15: an instruction of R15's list that has completed leaves the flags of the value it wrote; no other instruction
changes the flags, unless it raised an error (R145). -/
def Obligations.OnlyListedInstructionsWriteFlags : Prop :=
  ∀ (i : Instr) (s t : State), i.wf = true → exec i s = .next t → t.stopReason.isError = false →
    (∀ r, i.resultReg = some r → t.pc = s.pc → t.flags.Reads (t.reg r)) ∧
    (∀ r, i.resultReg = some r → t.pc ≠ s.pc → t.flags = s.flags) ∧
    (i.resultReg = none → t.flags = s.flags)

/-- R16: BR reads the flags, and it is the only instruction that does: other flags before any other instruction
change nothing after it but, at most, the flags themselves. -/
def Obligations.OnlyBrReadsFlags : Prop :=
  (∃ (n z p : Bool) (off : BitVec 9) (s t u : State) (f : Flags), exec (.br n z p off) s = .next t ∧
    exec (.br n z p off) { s with flags := f } = .next u ∧ t.pc ≠ u.pc) ∧
  ∀ (i : Instr) (s t : State) (f : Flags), i.isBr = false → exec i s = .next t →
    exec i { s with flags := f } = .next t ∨ exec i { s with flags := f } = .next { t with flags := f }

/-- R33, R129: only ST, STI and STR change memory, each one word, unless an error was raised (R145). -/
def Obligations.OnlyStoresWriteMemory : Prop :=
  ∀ (i : Instr) (s t : State), exec i s = .next t → t.stopReason.isError = false →
    (storesTo i s = none → SameMemory s t) ∧
    (∀ a v, storesTo i s = some (a, v) → SameMemoryBut a s t ∧ t.memRead a = v)

/-- R10: an instruction changes no register but its DR, R7 for JSR, JSRR and TRAP, and R0 for GETC and IN, unless it
raised an error (R145). -/
def Obligations.OnlyNamedRegistersChange : Prop :=
  ∀ (i : Instr) (s t : State) (r : Reg), exec i s = .next t → t.stopReason.isError = false →
    i.mayWrite r = false → t.reg r = s.reg r

/-- R12: after an instruction the pc is the incremented one, unless it is a BR, JMP, JSR or JSRR, or raised an error
(R145), or is a TRAP that has not completed (R75: the pc is then its own address and the mark names it,
notes/assumptions/10.md). -/
def Obligations.PcMovesOnlyByControlTransfer : Prop :=
  ∀ (i : Instr) (s t : State), exec i s = .next t → t.stopReason.isError = false →
    i.transfersControl = false →
    t.pc = s.pc ∨
    (t.pc = s.pc - 1 ∧ i.opcode = 0xF ∧ t.progress ≠ .idle ∧ (i.wf = true → t.progress.instr = some i))

/-- R21, R128, R150: over any number of steps, errors included, the output only grows at its end, the host's answers
are taken in order, and exactly the bytes among them are counted. -/
def Obligations.ConsoleHistoryOnlyGrows : Prop :=
  ∀ (n : Nat) (s t : State), core.run n s = .next t →
    s.out <+: t.out ∧
    ∃ used, s.hostReads = used ++ t.hostReads ∧
      t.inConsumed = s.inConsumed + (used.filter ReadAnswer.isByte).length

/-! ### Reset and the invariant (10_state.md, 70_reset_and_hazards.md) -/

/-- R160, R161: a launch places the image from ENTRY_ADDRESS on, every other word is 0x0000, and every other piece of
state has its reset value; an image too long is rejected and the core never starts. (The host's side at launch is the
model's choice, notes/assumptions/5.md, and is not stated.) -/
def Obligations.LaunchPlacesImage : Prop :=
  (∀ l : Launch, l.image.length ≤ 65536 - l.entryAddress.toNat → ∃ s, launch l = .next s ∧
    s.runState = .running ∧ s.stopReason = .none ∧ s.pc = l.entryAddress ∧ s.regs = l.resetGpr ∧
    s.flags = Flags.ofReset l.resetFlags ∧ s.out = [] ∧ s.inConsumed = 0 ∧ s.params = l.params ∧
    (∀ (i : Nat) (w : Word), l.image[i]? = some w → s.memRead (BitVec.ofNat 16 (l.entryAddress.toNat + i)) = w) ∧
    (∀ a : Word, (a.toNat < l.entryAddress.toNat ∨ l.entryAddress.toNat + l.image.length ≤ a.toNat) →
      s.memRead a = 0x0000)) ∧
  (∀ l : Launch, 65536 - l.entryAddress.toNat < l.image.length → launch l = .fault .oversizedImage)

/-- The state after reset meets the invariant, and it is the launch with the conventional entry address, no image and
the values notes/assumptions/1.md to 3.md choose. -/
def Obligations.ResetIsSound : Prop :=
  State.reset.Inv ∧ launch Config.conventionalLaunch = .next State.reset

/-- Every launch that starts the core gives a state that meets the invariant, with no instruction in progress (the mark
is the model's own, notes/assumptions/10.md). -/
def Obligations.LaunchIsSound : Prop :=
  ∀ (l : Launch) (s : State), launch l = .next s → s.Inv ∧ s.progress = .idle

/-- Every step keeps the invariant: the canonical memory, NONE exactly when RUNNING (R18, D11), mutually exclusive
flags (R13), and an uncompleted instruction that is the one at the pc (R75). -/
def Obligations.StepKeepsInvariant : Prop :=
  ∀ s t : State, s.Inv → step s = .next t → t.Inv
end

