-- ==== Sys2Proof/Laws/State.lean ====
section
/-! SUPPORT. What each update of the state leaves in each field, so that no proof unfolds a record update; and the
register file and memory read through their accessors. -/

namespace Sys2Proof.Machine

variable (s : State)

/-! #### setReg -/

@[simp] theorem State.setReg_runState (r : Reg) (v : Word) : (s.setReg r v).runState = s.runState := rfl
@[simp] theorem State.setReg_stopReason (r : Reg) (v : Word) : (s.setReg r v).stopReason = s.stopReason := rfl
@[simp] theorem State.setReg_regs (r : Reg) (v : Word) : (s.setReg r v).regs = s.regs.set r v := rfl
@[simp] theorem State.setReg_pc (r : Reg) (v : Word) : (s.setReg r v).pc = s.pc := rfl
@[simp] theorem State.setReg_flags (r : Reg) (v : Word) : (s.setReg r v).flags = s.flags := rfl
@[simp] theorem State.setReg_mem (r : Reg) (v : Word) : (s.setReg r v).mem = s.mem := rfl
@[simp] theorem State.setReg_out (r : Reg) (v : Word) : (s.setReg r v).out = s.out := rfl
@[simp] theorem State.setReg_inConsumed (r : Reg) (v : Word) : (s.setReg r v).inConsumed = s.inConsumed := rfl
@[simp] theorem State.setReg_hostReads (r : Reg) (v : Word) : (s.setReg r v).hostReads = s.hostReads := rfl
@[simp] theorem State.setReg_writeBudget (r : Reg) (v : Word) : (s.setReg r v).writeBudget = s.writeBudget := rfl
@[simp] theorem State.setReg_params (r : Reg) (v : Word) : (s.setReg r v).params = s.params := rfl
@[simp] theorem State.setReg_progress (r : Reg) (v : Word) : (s.setReg r v).progress = s.progress := rfl
@[simp] theorem State.setReg_draws (r : Reg) (v : Word) : (s.setReg r v).draws = s.draws := rfl
@[simp] theorem State.setReg_memRead (r : Reg) (v : Word) (x : Word) : (s.setReg r v).memRead x = s.memRead x := rfl

/-! #### setPc -/

@[simp] theorem State.setPc_runState (v : Word) : (s.setPc v).runState = s.runState := rfl
@[simp] theorem State.setPc_stopReason (v : Word) : (s.setPc v).stopReason = s.stopReason := rfl
@[simp] theorem State.setPc_regs (v : Word) : (s.setPc v).regs = s.regs := rfl
@[simp] theorem State.setPc_pc (v : Word) : (s.setPc v).pc = v := rfl
@[simp] theorem State.setPc_flags (v : Word) : (s.setPc v).flags = s.flags := rfl
@[simp] theorem State.setPc_mem (v : Word) : (s.setPc v).mem = s.mem := rfl
@[simp] theorem State.setPc_out (v : Word) : (s.setPc v).out = s.out := rfl
@[simp] theorem State.setPc_inConsumed (v : Word) : (s.setPc v).inConsumed = s.inConsumed := rfl
@[simp] theorem State.setPc_hostReads (v : Word) : (s.setPc v).hostReads = s.hostReads := rfl
@[simp] theorem State.setPc_writeBudget (v : Word) : (s.setPc v).writeBudget = s.writeBudget := rfl
@[simp] theorem State.setPc_params (v : Word) : (s.setPc v).params = s.params := rfl
@[simp] theorem State.setPc_progress (v : Word) : (s.setPc v).progress = s.progress := rfl
@[simp] theorem State.setPc_draws (v : Word) : (s.setPc v).draws = s.draws := rfl
@[simp] theorem State.setPc_reg (v : Word) (q : Reg) : (s.setPc v).reg q = s.reg q := rfl
@[simp] theorem State.setPc_memRead (v : Word) (x : Word) : (s.setPc v).memRead x = s.memRead x := rfl

/-! #### memWrite -/

@[simp] theorem State.memWrite_runState (a v : Word) : (s.memWrite a v).runState = s.runState := rfl
@[simp] theorem State.memWrite_stopReason (a v : Word) : (s.memWrite a v).stopReason = s.stopReason := rfl
@[simp] theorem State.memWrite_regs (a v : Word) : (s.memWrite a v).regs = s.regs := rfl
@[simp] theorem State.memWrite_pc (a v : Word) : (s.memWrite a v).pc = s.pc := rfl
@[simp] theorem State.memWrite_flags (a v : Word) : (s.memWrite a v).flags = s.flags := rfl
@[simp] theorem State.memWrite_mem (a v : Word) : (s.memWrite a v).mem = s.mem.write a v := rfl
@[simp] theorem State.memWrite_out (a v : Word) : (s.memWrite a v).out = s.out := rfl
@[simp] theorem State.memWrite_inConsumed (a v : Word) : (s.memWrite a v).inConsumed = s.inConsumed := rfl
@[simp] theorem State.memWrite_hostReads (a v : Word) : (s.memWrite a v).hostReads = s.hostReads := rfl
@[simp] theorem State.memWrite_writeBudget (a v : Word) : (s.memWrite a v).writeBudget = s.writeBudget := rfl
@[simp] theorem State.memWrite_params (a v : Word) : (s.memWrite a v).params = s.params := rfl
@[simp] theorem State.memWrite_progress (a v : Word) : (s.memWrite a v).progress = s.progress := rfl
@[simp] theorem State.memWrite_draws (a v : Word) : (s.memWrite a v).draws = s.draws := rfl
@[simp] theorem State.memWrite_reg (a v : Word) (q : Reg) : (s.memWrite a v).reg q = s.reg q := rfl

/-! #### setcc -/

@[simp] theorem State.setcc_runState (v : Word) : (s.setcc v).runState = s.runState := rfl
@[simp] theorem State.setcc_stopReason (v : Word) : (s.setcc v).stopReason = s.stopReason := rfl
@[simp] theorem State.setcc_regs (v : Word) : (s.setcc v).regs = s.regs := rfl
@[simp] theorem State.setcc_pc (v : Word) : (s.setcc v).pc = s.pc := rfl
@[simp] theorem State.setcc_flags (v : Word) : (s.setcc v).flags = Flags.ofResult v := rfl
@[simp] theorem State.setcc_mem (v : Word) : (s.setcc v).mem = s.mem := rfl
@[simp] theorem State.setcc_out (v : Word) : (s.setcc v).out = s.out := rfl
@[simp] theorem State.setcc_inConsumed (v : Word) : (s.setcc v).inConsumed = s.inConsumed := rfl
@[simp] theorem State.setcc_hostReads (v : Word) : (s.setcc v).hostReads = s.hostReads := rfl
@[simp] theorem State.setcc_writeBudget (v : Word) : (s.setcc v).writeBudget = s.writeBudget := rfl
@[simp] theorem State.setcc_params (v : Word) : (s.setcc v).params = s.params := rfl
@[simp] theorem State.setcc_progress (v : Word) : (s.setcc v).progress = s.progress := rfl
@[simp] theorem State.setcc_draws (v : Word) : (s.setcc v).draws = s.draws := rfl
@[simp] theorem State.setcc_reg (v : Word) (q : Reg) : (s.setcc v).reg q = s.reg q := rfl
@[simp] theorem State.setcc_memRead (v : Word) (x : Word) : (s.setcc v).memRead x = s.memRead x := rfl

/-! #### setResult -/

@[simp] theorem State.setResult_runState (r : Reg) (v : Word) : (s.setResult r v).runState = s.runState := rfl
@[simp] theorem State.setResult_stopReason (r : Reg) (v : Word) : (s.setResult r v).stopReason = s.stopReason := rfl
@[simp] theorem State.setResult_regs (r : Reg) (v : Word) : (s.setResult r v).regs = s.regs.set r v := rfl
@[simp] theorem State.setResult_pc (r : Reg) (v : Word) : (s.setResult r v).pc = s.pc := rfl
@[simp] theorem State.setResult_flags (r : Reg) (v : Word) : (s.setResult r v).flags = Flags.ofResult v := rfl
@[simp] theorem State.setResult_mem (r : Reg) (v : Word) : (s.setResult r v).mem = s.mem := rfl
@[simp] theorem State.setResult_out (r : Reg) (v : Word) : (s.setResult r v).out = s.out := rfl
@[simp] theorem State.setResult_inConsumed (r : Reg) (v : Word) : (s.setResult r v).inConsumed = s.inConsumed := rfl
@[simp] theorem State.setResult_hostReads (r : Reg) (v : Word) : (s.setResult r v).hostReads = s.hostReads := rfl
@[simp] theorem State.setResult_writeBudget (r : Reg) (v : Word) : (s.setResult r v).writeBudget = s.writeBudget := rfl
@[simp] theorem State.setResult_params (r : Reg) (v : Word) : (s.setResult r v).params = s.params := rfl
@[simp] theorem State.setResult_progress (r : Reg) (v : Word) : (s.setResult r v).progress = s.progress := rfl
@[simp] theorem State.setResult_draws (r : Reg) (v : Word) : (s.setResult r v).draws = s.draws := rfl
@[simp] theorem State.setResult_memRead (r : Reg) (v : Word) (x : Word) : (s.setResult r v).memRead x = s.memRead x := rfl

/-! #### link -/

@[simp] theorem State.link_runState : (s.link).runState = s.runState := rfl
@[simp] theorem State.link_stopReason : (s.link).stopReason = s.stopReason := rfl
@[simp] theorem State.link_regs : (s.link).regs = s.regs.set linkReg s.pc := rfl
@[simp] theorem State.link_pc : (s.link).pc = s.pc := rfl
@[simp] theorem State.link_flags : (s.link).flags = s.flags := rfl
@[simp] theorem State.link_mem : (s.link).mem = s.mem := rfl
@[simp] theorem State.link_out : (s.link).out = s.out := rfl
@[simp] theorem State.link_inConsumed : (s.link).inConsumed = s.inConsumed := rfl
@[simp] theorem State.link_hostReads : (s.link).hostReads = s.hostReads := rfl
@[simp] theorem State.link_writeBudget : (s.link).writeBudget = s.writeBudget := rfl
@[simp] theorem State.link_params : (s.link).params = s.params := rfl
@[simp] theorem State.link_progress : (s.link).progress = s.progress := rfl
@[simp] theorem State.link_draws : (s.link).draws = s.draws := rfl
@[simp] theorem State.link_memRead (x : Word) : (s.link).memRead x = s.memRead x := rfl

/-! #### advance -/

@[simp] theorem State.advance_runState : (s.advance).runState = s.runState := rfl
@[simp] theorem State.advance_stopReason : (s.advance).stopReason = s.stopReason := rfl
@[simp] theorem State.advance_regs : (s.advance).regs = s.regs := rfl
@[simp] theorem State.advance_pc : (s.advance).pc = s.pc + 1 := rfl
@[simp] theorem State.advance_flags : (s.advance).flags = s.flags := rfl
@[simp] theorem State.advance_mem : (s.advance).mem = s.mem := rfl
@[simp] theorem State.advance_out : (s.advance).out = s.out := rfl
@[simp] theorem State.advance_inConsumed : (s.advance).inConsumed = s.inConsumed := rfl
@[simp] theorem State.advance_hostReads : (s.advance).hostReads = s.hostReads := rfl
@[simp] theorem State.advance_writeBudget : (s.advance).writeBudget = s.writeBudget := rfl
@[simp] theorem State.advance_params : (s.advance).params = s.params := rfl
@[simp] theorem State.advance_progress : (s.advance).progress = s.progress := rfl
@[simp] theorem State.advance_draws : (s.advance).draws = s.draws := rfl
@[simp] theorem State.advance_reg (q : Reg) : (s.advance).reg q = s.reg q := rfl
@[simp] theorem State.advance_memRead (x : Word) : (s.advance).memRead x = s.memRead x := rfl

/-! #### halt -/

@[simp] theorem State.halt_runState (e : StopReason) : (s.halt e).runState = .halted := rfl
@[simp] theorem State.halt_stopReason (e : StopReason) : (s.halt e).stopReason = e := rfl
@[simp] theorem State.halt_regs (e : StopReason) : (s.halt e).regs = s.regs := rfl
@[simp] theorem State.halt_pc (e : StopReason) : (s.halt e).pc = s.pc := rfl
@[simp] theorem State.halt_flags (e : StopReason) : (s.halt e).flags = s.flags := rfl
@[simp] theorem State.halt_mem (e : StopReason) : (s.halt e).mem = s.mem := rfl
@[simp] theorem State.halt_out (e : StopReason) : (s.halt e).out = s.out := rfl
@[simp] theorem State.halt_inConsumed (e : StopReason) : (s.halt e).inConsumed = s.inConsumed := rfl
@[simp] theorem State.halt_hostReads (e : StopReason) : (s.halt e).hostReads = s.hostReads := rfl
@[simp] theorem State.halt_writeBudget (e : StopReason) : (s.halt e).writeBudget = s.writeBudget := rfl
@[simp] theorem State.halt_params (e : StopReason) : (s.halt e).params = s.params := rfl
@[simp] theorem State.halt_progress (e : StopReason) : (s.halt e).progress = s.progress := rfl
@[simp] theorem State.halt_draws (e : StopReason) : (s.halt e).draws = s.draws := rfl
@[simp] theorem State.halt_reg (e : StopReason) (q : Reg) : (s.halt e).reg q = s.reg q := rfl
@[simp] theorem State.halt_memRead (e : StopReason) (x : Word) : (s.halt e).memRead x = s.memRead x := rfl

/-! #### trapReturn -/

@[simp] theorem State.trapReturn_runState : (s.trapReturn).runState = s.runState := rfl
@[simp] theorem State.trapReturn_stopReason : (s.trapReturn).stopReason = s.stopReason := rfl
@[simp] theorem State.trapReturn_regs : (s.trapReturn).regs = s.regs := rfl
@[simp] theorem State.trapReturn_pc : (s.trapReturn).pc = s.pc := rfl
@[simp] theorem State.trapReturn_flags : (s.trapReturn).flags = s.flags := rfl
@[simp] theorem State.trapReturn_mem : (s.trapReturn).mem = s.mem := rfl
@[simp] theorem State.trapReturn_out : (s.trapReturn).out = s.out := rfl
@[simp] theorem State.trapReturn_inConsumed : (s.trapReturn).inConsumed = s.inConsumed := rfl
@[simp] theorem State.trapReturn_hostReads : (s.trapReturn).hostReads = s.hostReads := rfl
@[simp] theorem State.trapReturn_writeBudget : (s.trapReturn).writeBudget = s.writeBudget := rfl
@[simp] theorem State.trapReturn_params : (s.trapReturn).params = s.params := rfl
@[simp] theorem State.trapReturn_progress : (s.trapReturn).progress = .idle := rfl
@[simp] theorem State.trapReturn_draws : (s.trapReturn).draws = s.draws := rfl
@[simp] theorem State.trapReturn_reg (q : Reg) : (s.trapReturn).reg q = s.reg q := rfl
@[simp] theorem State.trapReturn_memRead (x : Word) : (s.trapReturn).memRead x = s.memRead x := rfl

/-! #### suspend -/

@[simp] theorem State.suspend_runState (b : State) (p : Progress) : (State.suspend b s p).runState = s.runState := rfl
@[simp] theorem State.suspend_stopReason (b : State) (p : Progress) : (State.suspend b s p).stopReason = s.stopReason := rfl
@[simp] theorem State.suspend_regs (b : State) (p : Progress) : (State.suspend b s p).regs = b.regs := rfl
@[simp] theorem State.suspend_pc (b : State) (p : Progress) : (State.suspend b s p).pc = b.pc - 1 := rfl
@[simp] theorem State.suspend_flags (b : State) (p : Progress) : (State.suspend b s p).flags = s.flags := rfl
@[simp] theorem State.suspend_mem (b : State) (p : Progress) : (State.suspend b s p).mem = s.mem := rfl
@[simp] theorem State.suspend_out (b : State) (p : Progress) : (State.suspend b s p).out = s.out := rfl
@[simp] theorem State.suspend_inConsumed (b : State) (p : Progress) : (State.suspend b s p).inConsumed = s.inConsumed := rfl
@[simp] theorem State.suspend_hostReads (b : State) (p : Progress) : (State.suspend b s p).hostReads = s.hostReads := rfl
@[simp] theorem State.suspend_writeBudget (b : State) (p : Progress) : (State.suspend b s p).writeBudget = s.writeBudget := rfl
@[simp] theorem State.suspend_params (b : State) (p : Progress) : (State.suspend b s p).params = s.params := rfl
@[simp] theorem State.suspend_progress (b : State) (p : Progress) : (State.suspend b s p).progress = p := rfl
@[simp] theorem State.suspend_draws (b : State) (p : Progress) : (State.suspend b s p).draws = s.draws := rfl
@[simp] theorem State.suspend_memRead (b : State) (p : Progress) (x : Word) : (State.suspend b s p).memRead x = s.memRead x := rfl

/-! #### raise -/

@[simp] theorem State.raise_runState (e : StopReason) : (s.raise e).runState = .halted := rfl
@[simp] theorem State.raise_stopReason (e : StopReason) : (s.raise e).stopReason = e := rfl
@[simp] theorem State.raise_regs (e : StopReason) : (s.raise e).regs = Vector.ofFn (Config.freeReg s.draws) := rfl
@[simp] theorem State.raise_pc (e : StopReason) : (s.raise e).pc = Config.freePc s.draws := rfl
@[simp] theorem State.raise_flags (e : StopReason) : (s.raise e).flags = ⟨Config.freeN s.draws, Config.freeZ s.draws, Config.freeP s.draws⟩ := rfl
@[simp] theorem State.raise_mem (e : StopReason) : (s.raise e).mem = Memory.writeAll [] (Config.freeCells s.draws) := rfl
@[simp] theorem State.raise_out (e : StopReason) : (s.raise e).out = s.out := rfl
@[simp] theorem State.raise_inConsumed (e : StopReason) : (s.raise e).inConsumed = s.inConsumed := rfl
@[simp] theorem State.raise_hostReads (e : StopReason) : (s.raise e).hostReads = s.hostReads := rfl
@[simp] theorem State.raise_writeBudget (e : StopReason) : (s.raise e).writeBudget = s.writeBudget := rfl
@[simp] theorem State.raise_params (e : StopReason) : (s.raise e).params = s.params := rfl
@[simp] theorem State.raise_progress (e : StopReason) : (s.raise e).progress = .idle := rfl
@[simp] theorem State.raise_draws (e : StopReason) : (s.raise e).draws = s.draws + 1 := rfl

/-! #### placeWord -/

@[simp] theorem State.placeWord_runState (w : Word) : (s.placeWord w).runState = .running := rfl
@[simp] theorem State.placeWord_stopReason (w : Word) : (s.placeWord w).stopReason = .none := rfl
@[simp] theorem State.placeWord_regs (w : Word) : (s.placeWord w).regs = s.regs := rfl
@[simp] theorem State.placeWord_pc (w : Word) : (s.placeWord w).pc = s.pc := rfl
@[simp] theorem State.placeWord_flags (w : Word) : (s.placeWord w).flags = s.flags := rfl
@[simp] theorem State.placeWord_mem (w : Word) : (s.placeWord w).mem = s.mem.write s.pc w := rfl
@[simp] theorem State.placeWord_out (w : Word) : (s.placeWord w).out = s.out := rfl
@[simp] theorem State.placeWord_inConsumed (w : Word) : (s.placeWord w).inConsumed = s.inConsumed := rfl
@[simp] theorem State.placeWord_hostReads (w : Word) : (s.placeWord w).hostReads = s.hostReads := rfl
@[simp] theorem State.placeWord_writeBudget (w : Word) : (s.placeWord w).writeBudget = s.writeBudget := rfl
@[simp] theorem State.placeWord_params (w : Word) : (s.placeWord w).params = s.params := rfl
@[simp] theorem State.placeWord_progress (w : Word) : (s.placeWord w).progress = .idle := rfl
@[simp] theorem State.placeWord_draws (w : Word) : (s.placeWord w).draws = s.draws := rfl
@[simp] theorem State.placeWord_reg (w : Word) (q : Reg) : (s.placeWord w).reg q = s.reg q := rfl

/-! #### Registers -/

theorem State.reg_setReg (r q : Reg) (v : Word) : (s.setReg r v).reg q = if q = r then v else s.reg q := by
  by_cases h : q = r
  · subst h; simp [State.reg]
  · have : r.val ≠ q.val := fun e => h (Fin.ext e.symm)
    simp [State.reg, h, this]

@[simp] theorem State.reg_setReg_self (r : Reg) (v : Word) : (s.setReg r v).reg r = v := by
  simp [State.reg_setReg]

theorem State.reg_setReg_ne (r q : Reg) (v : Word) (h : q ≠ r) : (s.setReg r v).reg q = s.reg q := by
  simp [State.reg_setReg, h]

theorem State.reg_setResult (r q : Reg) (v : Word) :
    (s.setResult r v).reg q = if q = r then v else s.reg q := s.reg_setReg r q v

theorem State.reg_link (q : Reg) : s.link.reg q = if q = linkReg then s.pc else s.reg q := s.reg_setReg linkReg q s.pc

@[simp] theorem State.suspend_reg (b : State) (p : Progress) (q : Reg) : (State.suspend b s p).reg q = b.reg q := rfl

end Sys2Proof.Machine
end

