-- ==== Sys2Proof/Laws/Console.lean ====
section
/-! SUPPORT. What the console operations can do. -/

namespace Sys2Proof.Machine

/-- The host's budget after `n` accepted writes. -/
def budgetAfter (budget : Option Nat) (n : Nat) : Option Nat := budget.map (· - n)

/-- `n` bytes accepted: they stand at the end of the history and the budget has shrunk; nothing else changes. -/
def State.wrote (s : State) (bs : List Byte) : State :=
  { s with out := s.out ++ bs, writeBudget := budgetAfter s.writeBudget bs.length }

@[simp] theorem State.wrote_nil (s : State) : s.wrote [] = s := by
  cases s; rename_i b _ _ _; cases b <;> simp [State.wrote, budgetAfter]

theorem State.wrote_wrote (s : State) (as bs : List Byte) : (s.wrote as).wrote bs = s.wrote (as ++ bs) := by
  cases h : s.writeBudget <;> simp [State.wrote, budgetAfter, h, Nat.sub_sub]

/-- One write: accepted and in the history, or failed with nothing changed. -/
theorem State.consoleWrite_eq (s : State) (b : Byte) :
    s.consoleWrite b = if s.accepts 1 then .accepted (s.wrote [b]) else .failed s := by
  unfold State.consoleWrite State.accepts State.wrote budgetAfter
  cases h : s.writeBudget with
  | none => simp
  | some k => cases k <;> simp

theorem State.wrote_accepts (s : State) (bs : List Byte) (n : Nat) (h : s.accepts bs.length = true) :
    (s.wrote bs).accepts n = s.accepts (bs.length + n) := by
  unfold State.accepts at *
  cases hb : s.writeBudget with
  | none => simp [State.wrote, budgetAfter, hb]
  | some k =>
    simp only [hb, decide_eq_true_eq] at h
    simp only [State.wrote, budgetAfter, hb, Option.map_some]
    exact decide_eq_decide.mpr (by omega)

theorem State.accepts_mono {s : State} {m n : Nat} (h : s.accepts n = true) (hm : m ≤ n) : s.accepts m = true := by
  unfold State.accepts at *
  cases hb : s.writeBudget with
  | none => rfl
  | some k => simp only [hb, decide_eq_true_eq] at h ⊢; omega

/-- Writing bytes the host accepts: all of them are in the history. -/
theorem State.consoleWriteAll_accepted (s : State) (bs : List Byte) (h : s.accepts bs.length = true) :
    s.consoleWriteAll bs = .accepted (s.wrote bs) := by
  induction bs generalizing s with
  | nil => simp [State.consoleWriteAll]
  | cons b rest ih =>
    have h1 : s.accepts 1 = true := State.accepts_mono h (by simp)
    have h2 : (s.wrote [b]).accepts rest.length = true := by
      rw [s.wrote_accepts [b] _ h1]; simpa [Nat.add_comm] using h
    simp [State.consoleWriteAll, State.consoleWrite_eq, h1, ih _ h2, State.wrote_wrote]

/-- Writing bytes the host does not accept all of: exactly the bytes before the first failure are in the history. -/
theorem State.consoleWriteAll_failed (s : State) (bs : List Byte) (k : Nat) (hk : s.writeBudget = some k)
    (h : k < bs.length) : s.consoleWriteAll bs = .failed (s.wrote (bs.take k)) := by
  induction bs generalizing s k with
  | nil => simp at h
  | cons b rest ih =>
    cases k with
    | zero => simp [State.consoleWriteAll, State.consoleWrite_eq, State.accepts, hk]
    | succ k =>
      have h1 : s.accepts 1 = true := by simp [State.accepts, hk]
      have hb : (s.wrote [b]).writeBudget = some k := by simp [State.wrote, budgetAfter, hk]
      have := ih (s.wrote [b]) k hb (by simpa using h)
      simp [State.consoleWriteAll, State.consoleWrite_eq, h1, this, State.wrote_wrote]

/-- The host accepts the writes, or its budget is smaller. -/
theorem State.accepts_or (s : State) (n : Nat) :
    s.accepts n = true ∨ ∃ k, s.writeBudget = some k ∧ k < n := by
  unfold State.accepts
  cases s.writeBudget with
  | none => simp
  | some k => by_cases h : n ≤ k <;> simp [h]; omega

/-- Everything writing bytes can do: all of them accepted, or a proper part and then a failure. -/
theorem State.consoleWriteAll_cases (s : State) (bs : List Byte) :
    (s.accepts bs.length = true ∧ s.consoleWriteAll bs = .accepted (s.wrote bs)) ∨
    (∃ k, s.writeBudget = some k ∧ k < bs.length ∧ s.consoleWriteAll bs = .failed (s.wrote (bs.take k))) := by
  rcases s.accepts_or bs.length with h | ⟨k, hk, hlt⟩
  · exact .inl ⟨h, s.consoleWriteAll_accepted bs h⟩
  · exact .inr ⟨k, hk, hlt, s.consoleWriteAll_failed bs k hk hlt⟩

/-- The state after an answer has been taken from the host: `n` bytes more are counted. -/
def State.tookAnswer (s : State) (rest : List ReadAnswer) (n : Nat) : State :=
  { s with hostReads := rest, inConsumed := s.inConsumed + n }

/-- Everything a console read can do. -/
theorem State.consoleRead_cases (s : State) :
    (s.hostReads = [] ∧ s.consoleRead = .notYet s) ∨
    (∃ rest, s.hostReads = .notYet :: rest ∧ s.consoleRead = .notYet (s.tookAnswer rest 0)) ∨
    (∃ rest, s.hostReads = .failed :: rest ∧ s.consoleRead = .failed (s.tookAnswer rest 0)) ∨
    (∃ b rest, s.hostReads = .byte b :: rest ∧ s.consoleRead = .byte b (s.tookAnswer rest 1)) := by
  unfold State.consoleRead State.tookAnswer
  cases s.hostReads with
  | nil => simp
  | cons a rest => cases a <;> simp

variable (s : State) (bs : List Byte) (rest : List ReadAnswer) (n : Nat)

@[simp] theorem State.wrote_runState : (s.wrote bs).runState = s.runState := rfl
@[simp] theorem State.wrote_stopReason : (s.wrote bs).stopReason = s.stopReason := rfl
@[simp] theorem State.wrote_regs : (s.wrote bs).regs = s.regs := rfl
@[simp] theorem State.wrote_pc : (s.wrote bs).pc = s.pc := rfl
@[simp] theorem State.wrote_flags : (s.wrote bs).flags = s.flags := rfl
@[simp] theorem State.wrote_mem : (s.wrote bs).mem = s.mem := rfl
@[simp] theorem State.wrote_out : (s.wrote bs).out = s.out ++ bs := rfl
@[simp] theorem State.wrote_inConsumed : (s.wrote bs).inConsumed = s.inConsumed := rfl
@[simp] theorem State.wrote_hostReads : (s.wrote bs).hostReads = s.hostReads := rfl
@[simp] theorem State.wrote_writeBudget :
    (s.wrote bs).writeBudget = budgetAfter s.writeBudget bs.length := rfl
@[simp] theorem State.wrote_params : (s.wrote bs).params = s.params := rfl
@[simp] theorem State.wrote_progress : (s.wrote bs).progress = s.progress := rfl
@[simp] theorem State.wrote_draws : (s.wrote bs).draws = s.draws := rfl
@[simp] theorem State.wrote_reg (q : Reg) : (s.wrote bs).reg q = s.reg q := rfl
@[simp] theorem State.wrote_memRead (a : Word) : (s.wrote bs).memRead a = s.memRead a := rfl

@[simp] theorem State.tookAnswer_runState : (s.tookAnswer rest n).runState = s.runState := rfl
@[simp] theorem State.tookAnswer_stopReason : (s.tookAnswer rest n).stopReason = s.stopReason := rfl
@[simp] theorem State.tookAnswer_regs : (s.tookAnswer rest n).regs = s.regs := rfl
@[simp] theorem State.tookAnswer_pc : (s.tookAnswer rest n).pc = s.pc := rfl
@[simp] theorem State.tookAnswer_flags : (s.tookAnswer rest n).flags = s.flags := rfl
@[simp] theorem State.tookAnswer_mem : (s.tookAnswer rest n).mem = s.mem := rfl
@[simp] theorem State.tookAnswer_out : (s.tookAnswer rest n).out = s.out := rfl
@[simp] theorem State.tookAnswer_inConsumed : (s.tookAnswer rest n).inConsumed = s.inConsumed + n := rfl
@[simp] theorem State.tookAnswer_hostReads : (s.tookAnswer rest n).hostReads = rest := rfl
@[simp] theorem State.tookAnswer_writeBudget : (s.tookAnswer rest n).writeBudget = s.writeBudget := rfl
@[simp] theorem State.tookAnswer_params : (s.tookAnswer rest n).params = s.params := rfl
@[simp] theorem State.tookAnswer_progress : (s.tookAnswer rest n).progress = s.progress := rfl
@[simp] theorem State.tookAnswer_draws : (s.tookAnswer rest n).draws = s.draws := rfl
@[simp] theorem State.tookAnswer_reg (q : Reg) : (s.tookAnswer rest n).reg q = s.reg q := rfl
@[simp] theorem State.tookAnswer_memRead (a : Word) : (s.tookAnswer rest n).memRead a = s.memRead a := rfl

end Sys2Proof.Machine
end

