-- ==== Sys2Proof/Laws/Decode.lean ====
section
/-! SUPPORT. What the decoder's answer says of the word (the fields of each instruction are the bits the formats name,
30_encoding.md R51, R53, R55), and where the encoder puts each bit. -/

namespace Sys2Proof

/-- The word's fields, for each instruction it can decode to. -/
def Instr.FieldsOf (w : Word) : Instr → Prop
  | .br n z p off => n = w.getLsbD 11 ∧ z = w.getLsbD 10 ∧ p = w.getLsbD 9 ∧ off = w.extractLsb' 0 9
  | .addReg dr sr1 sr2 | .andReg dr sr1 sr2 =>
    w.getLsbD 5 = false ∧ dr = regField 9 w ∧ sr1 = regField 6 w ∧ sr2 = regField 0 w
  | .addImm dr sr1 imm | .andImm dr sr1 imm =>
    w.getLsbD 5 = true ∧ dr = regField 9 w ∧ sr1 = regField 6 w ∧ imm = w.extractLsb' 0 5
  | .ld r off | .ldi r off | .lea r off | .st r off | .sti r off => r = regField 9 w ∧ off = w.extractLsb' 0 9
  | .ldr r base off | .str r base off => r = regField 9 w ∧ base = regField 6 w ∧ off = w.extractLsb' 0 6
  | .jsr off => w.getLsbD 11 = true ∧ off = w.extractLsb' 0 11
  | .jsrr base => w.getLsbD 11 = false ∧ base = regField 6 w
  | .not dr sr => dr = regField 9 w ∧ sr = regField 6 w
  | .jmp base => base = regField 6 w
  | .reserved8 | .reservedD => True
  | .trap v => v = w.extractLsb' 0 8
  | .trapGetc => w.extractLsb' 0 8 = 0x20#8
  | .trapOut => w.extractLsb' 0 8 = 0x21#8
  | .trapPuts => w.extractLsb' 0 8 = 0x22#8
  | .trapIn => w.extractLsb' 0 8 = 0x23#8
  | .trapPutsp => w.extractLsb' 0 8 = 0x24#8
  | .trapHalt => w.extractLsb' 0 8 = 0x25#8

theorem decodeTrap_fields (w : Word) : (decodeTrap (w.extractLsb' 0 8)).FieldsOf w := by
  unfold decodeTrap
  split_ifs <;> simp_all [Instr.FieldsOf]

theorem decodeWord_fields (w : Word) : (decodeWord w).FieldsOf w := by
  unfold decodeWord
  split <;> first
    | exact decodeTrap_fields w
    | (split_ifs <;> simp_all [Instr.FieldsOf])
    | simp [Instr.FieldsOf]

theorem decodeWord_fields_of_eq {w : Word} {i : Instr} (h : decodeWord w = i) : i.FieldsOf w := h ▸ decodeWord_fields w

/-- Where the encoder puts a field's bits. -/
theorem getLsbD_atBit {n : Nat} (lo : Nat) (v : BitVec n) (k : Nat) :
    (atBit lo v).getLsbD k = (decide (lo ≤ k) && decide (k < 16) && v.getLsbD (k - lo)) := by
  unfold atBit
  rw [BitVec.getLsbD_shiftLeft, BitVec.getLsbD_setWidth]
  by_cases h1 : lo ≤ k
  · by_cases h2 : k < 16
    · simp [h1, h2, Nat.not_lt.mpr h1, show k - lo < 16 by omega]
    · simp [h2]
  · simp [h1, show k < lo by omega]

/-- A field of a word, from its bits. -/
theorem extract_eq_of_bits {n : Nat} {w : Word} {lo : Nat} {v : BitVec n}
    (h : ∀ k, k < n → w.getLsbD (lo + k) = v.getLsbD k) : w.extractLsb' lo n = v := by
  apply BitVec.eq_of_getLsbD_eq
  intro k hk
  rw [BitVec.getLsbD_extractLsb']
  simp [hk, h k hk]

/-- A register field of a word, from its bits. -/
theorem regField_eq_of_bits {w : Word} {lo : Nat} {r : Reg}
    (h : ∀ k, k < 3 → w.getLsbD (lo + k) = (regBits r).getLsbD k) : regField lo w = r := by
  unfold regField
  rw [extract_eq_of_bits h]
  rfl

/-- A register field's bits are the word's. -/
theorem getLsbD_regBits (w : Word) (lo k : Nat) :
    (regBits (regField lo w)).getLsbD k = (decide (k < 3) && w.getLsbD (lo + k)) :=
  BitVec.getLsbD_extractLsb' lo 3 w k

end Sys2Proof
end

