-- ==== Sys2Proof/Laws/Memory.lean ====
section
/-! SUPPORT. The laws of memory: read after write, the canonical form, and that canonical memories that read alike
are equal. The first two hold of every list, canonical or not. -/

namespace Sys2Proof.Machine

namespace Memory

theorem erase_cons (c : Nat × Word) (rest : Memory) (a : Nat) :
    erase (c :: rest) a = if c.1 = a then erase rest a else c :: erase rest a := by
  by_cases h : c.1 = a <;> simp [erase, h]

theorem lookup_erase (m : Memory) (a b : Nat) : lookup (erase m a) b = if b = a then 0#16 else lookup m b := by
  induction m with
  | nil => simp [erase, lookup]
  | cons c rest ih =>
    by_cases hc : c.1 = a
    · rw [erase_cons, if_pos hc, ih, lookup]
      by_cases hb : b = a
      · simp [hb]
      · have : c.1 ≠ b := fun e => hb (e.symm.trans hc)
        simp [hb, this]
    · by_cases hb : c.1 = b
      · simp [erase_cons, hb, hb ▸ hc, lookup]
      · simp [erase_cons, hc, hb, lookup, ih]

theorem lookup_place (m : Memory) (a b : Nat) (v : Word) (h : ∀ c ∈ m, c.1 ≠ a) :
    lookup (place m a v) b = if b = a then v else lookup m b := by
  induction m with
  | nil => simp [place, lookup, eq_comm]
  | cons c rest ih =>
    have hc : c.1 ≠ a := h c (by simp)
    have ih := ih fun d hd => h d (by simp [hd])
    by_cases hb : b = a
    · subst hb; by_cases hlt : b < c.1 <;> simp [place, hlt, lookup, hc, ih]
    · have : a ≠ b := fun e => hb e.symm
      by_cases hlt : a < c.1 <;> simp [place, hlt, lookup, this, hb, ih]

theorem ne_of_mem_erase {m : Memory} {a : Nat} : ∀ c ∈ erase m a, c.1 ≠ a := by
  intro c hc
  simpa using (List.mem_filter.mp hc).2

/-- R33: a written address reads the value written, every other address reads as before. -/
theorem read_write (m : Memory) (a b v : Word) : (m.write a v).read b = if b = a then v else m.read b := by
  have hab : b.toNat = a.toNat ↔ b = a := BitVec.toNat_inj
  by_cases hv : v = 0#16
  · simp only [write, hv, if_true, read, lookup_erase, hab]
  · simp only [write, hv, if_false, read, lookup_place _ _ _ _ ne_of_mem_erase, lookup_erase, hab]
    by_cases h : b = a <;> simp [h]

@[simp] theorem read_write_self (m : Memory) (a v : Word) : (m.write a v).read a = v := by simp [read_write]

theorem read_write_ne (m : Memory) (a b v : Word) (h : b ≠ a) : (m.write a v).read b = m.read b := by
  simp [read_write, h]

@[simp] theorem read_nil (a : Word) : read [] a = 0#16 := rfl

theorem mem_place {m : Memory} {a : Nat} {v : Word} {c : Nat × Word} :
    c ∈ place m a v ↔ c = (a, v) ∨ c ∈ m := by
  induction m with
  | nil => simp [place]
  | cons d rest ih =>
    by_cases h : a < d.1
    · simp [place, h]
    · simp [place, h, ih, or_left_comm]

theorem erase_wf {m : Memory} (h : m.wf) (a : Nat) : (erase m a).wf :=
  ⟨h.1.filter _, fun c hc => h.2 c (List.mem_of_mem_filter hc)⟩

theorem place_wf {m : Memory} (h : m.wf) {a : Nat} {v : Word} (ha : a < 65536) (hv : v ≠ 0#16)
    (hm : ∀ c ∈ m, c.1 ≠ a) : (place m a v).wf := by
  refine ⟨?_, fun c hc => ?_⟩
  · induction m with
    | nil => simp [place]
    | cons d rest ih =>
      have hd := List.pairwise_cons.mp h.1
      have hda : d.1 ≠ a := hm d (by simp)
      have ih := ih ⟨hd.2, fun c hc => h.2 c (by simp [hc])⟩ fun c hc => hm c (by simp [hc])
      by_cases hlt : a < d.1
      · simp only [place, hlt, if_true, List.pairwise_cons]
        refine ⟨fun c hc => ?_, hd⟩
        rcases List.mem_cons.mp hc with rfl | hc
        · exact hlt
        · exact hlt.trans (hd.1 c hc)
      · simp only [place, hlt, if_false, List.pairwise_cons]
        refine ⟨fun c hc => ?_, ih⟩
        rcases mem_place.mp hc with rfl | hc
        · exact lt_of_le_of_ne (not_lt.mp hlt) hda
        · exact hd.1 c hc
  · rcases mem_place.mp hc with rfl | hc
    · exact ⟨ha, hv⟩
    · exact h.2 c hc

/-- A write keeps the canonical form. -/
theorem write_wf {m : Memory} (h : m.wf) (a v : Word) : (m.write a v).wf := by
  by_cases hv : v = 0#16
  · simpa [write, hv] using erase_wf h a.toNat
  · simp only [write, hv, if_false]
    exact place_wf (erase_wf h _) a.isLt hv ne_of_mem_erase

theorem nil_wf : wf [] := ⟨.nil, fun _ h => nomatch h⟩

theorem writeAll_wf {m : Memory} (h : m.wf) (cells : List (Word × Word)) : (m.writeAll cells).wf := by
  induction cells generalizing m with
  | nil => exact h
  | cons c rest ih => exact ih (write_wf h c.1 c.2)

theorem loadImage_wf {m : Memory} (h : m.wf) (a : Word) (ws : List Word) : (m.loadImage a ws).wf := by
  induction ws generalizing m a with
  | nil => exact h
  | cons w rest ih => exact ih (write_wf h a w) (a + 1)

theorem lookup_of_lt {m : Memory} {a : Nat} (h : ∀ c ∈ m, a < c.1) : lookup m a = 0#16 := by
  induction m with
  | nil => rfl
  | cons c rest ih =>
    have hc : c.1 ≠ a := (h c (by simp)).ne'
    simp [lookup, hc, ih fun d hd => h d (by simp [hd])]

theorem eq_of_lookup_eq {m m' : Memory} (h : m.wf) (h' : m'.wf)
    (e : ∀ k, k < 65536 → lookup m k = lookup m' k) : m = m' := by
  induction m generalizing m' with
  | nil =>
    cases m' with
    | nil => rfl
    | cons d _ =>
      have hd := h'.2 d (by simp)
      exact absurd (by simpa [lookup] using (e d.1 hd.1).symm) hd.2
  | cons c rest ih =>
    have hc := h.2 c (by simp)
    have hp := List.pairwise_cons.mp h.1
    cases m' with
    | nil => exact absurd (by simpa [lookup] using e c.1 hc.1) hc.2
    | cons d rest' =>
      have hd := h'.2 d (by simp)
      have hp' := List.pairwise_cons.mp h'.1
      have key : c.1 = d.1 := by
        rcases lt_trichotomy c.1 d.1 with hlt | heq | hgt
        · have := e c.1 hc.1
          rw [lookup_of_lt (m := d :: rest')] at this
          · exact absurd (by simpa [lookup] using this) hc.2
          · intro x hx
            rcases List.mem_cons.mp hx with rfl | hx
            · exact hlt
            · exact hlt.trans (hp'.1 x hx)
        · exact heq
        · have := e d.1 hd.1
          rw [lookup_of_lt (m := c :: rest)] at this
          · exact absurd (by simpa [lookup] using this.symm) hd.2
          · intro x hx
            rcases List.mem_cons.mp hx with rfl | hx
            · exact hgt
            · exact hgt.trans (hp.1 x hx)
      have hv : c.2 = d.2 := by simpa [lookup, key] using e c.1 hc.1
      have hrest : rest = rest' := by
        refine ih ⟨hp.2, fun x hx => h.2 x (by simp [hx])⟩ ⟨hp'.2, fun x hx => h'.2 x (by simp [hx])⟩ fun k hk => ?_
        by_cases hck : c.1 = k
        · subst hck
          rw [lookup_of_lt hp.1, lookup_of_lt (key ▸ hp'.1)]
        · have hdk : d.1 ≠ k := key ▸ hck
          simpa [lookup, hck, hdk] using e k hk
      rw [hrest, Prod.ext key hv]

/-- Two canonical memories that read alike are the same list. -/
theorem eq_of_read_eq {m m' : Memory} (h : m.wf) (h' : m'.wf) (e : ∀ a, m.read a = m'.read a) : m = m' :=
  eq_of_lookup_eq h h' fun k hk => by
    simpa [read, BitVec.toNat_ofNat, Nat.mod_eq_of_lt hk] using e (BitVec.ofNat 16 k)

end Memory

theorem State.memRead_memWrite (s : State) (a b v : Word) :
    (s.memWrite a v).memRead b = if b = a then v else s.memRead b := Memory.read_write s.mem a b v

@[simp] theorem State.memRead_memWrite_self (s : State) (a v : Word) : (s.memWrite a v).memRead a = v := by
  simp [State.memRead_memWrite]

end Sys2Proof.Machine
end

