-- ==== Sys2Proof/Laws/Effects.lean ====
section
/-! SUPPORT. One lemma per shared operation: everything a result write, a store, a control transfer, an error and a
held TRAP do, in the terms of Safety.lean. -/

namespace Sys2Proof.Machine

theorem SameConsole.refl (s : State) : SameConsole s s := ⟨rfl, rfl, rfl, rfl⟩

theorem SameControl.refl (s : State) : SameControl s s := ⟨rfl, rfl, rfl, rfl, rfl⟩

theorem SameMemory.refl (s : State) : SameMemory s s := fun _ => rfl

theorem SameRegsBut.refl (rs : List Reg) (s : State) : SameRegsBut rs s s := fun _ _ => rfl

/-- R14: the flags of a result read its sign. -/
theorem Flags.ofResult_reads (v : Word) : (Flags.ofResult v).Reads v := by
  have hmsb : v.getLsbD 15 = decide (v.toInt < 0) := by
    rw [← BitVec.msb_eq_toInt]; rfl
  have hz : v = 0#16 ↔ v.toInt = 0 := ⟨fun h => h ▸ rfl, fun h => BitVec.eq_of_toInt_eq (h.trans rfl)⟩
  have key : Flags.ofResult v =
      { n := decide (v.toInt < 0), z := decide (v.toInt = 0), p := decide (0 < v.toInt) } := by
    unfold Flags.ofResult
    rw [hmsb]
    simp only [hz]
    generalize v.toInt = x
    rcases lt_trichotomy x 0 with h | h | h
    · simp [h, Int.ne_of_lt h, Int.le_of_lt h]
    · simp [h]
    · simp [h, Int.ne_of_gt h, Int.not_lt.mpr (Int.le_of_lt h)]
  rw [key]
  exact ⟨rfl, rfl, rfl⟩

theorem Flags.Reads.exclusive {f : Flags} {v : Word} (h : f.Reads v) : f.exclusive = true := by
  unfold Flags.exclusive
  rw [h.n, h.z, h.p]
  generalize v.toInt = x
  rcases lt_trichotomy x 0 with h | h | h
  · simp [h, Int.ne_of_lt h, Int.le_of_lt h]
  · simp [h]
  · simp [h, Int.ne_of_gt h, Int.le_of_lt h]

theorem Flags.ofResult_exclusive (v : Word) : (Flags.ofResult v).exclusive = true := (Flags.ofResult_reads v).exclusive

/-- A result write is the whole effect of an instruction with a destination register. -/
theorem State.setResult_writes (s : State) (dr : Reg) (v : Word) : WritesResult dr v s (s.setResult dr v) where
  result := by simp [State.reg_setResult]
  flags := Flags.ofResult_reads v
  regs := fun r hr => by rw [State.reg_setResult, if_neg (by simpa using hr)]
  pc := rfl
  memory := fun _ => rfl
  console := ⟨rfl, rfl, rfl, rfl⟩
  control := ⟨rfl, rfl, rfl, rfl, rfl⟩

/-- A memory write is the whole effect of a store. -/
theorem State.memWrite_writes (s : State) (a v : Word) : WritesMemory a v s (s.memWrite a v) where
  stored := by simp
  memory := fun b hb => by rw [State.memRead_memWrite, if_neg hb]
  regs := fun _ _ => rfl
  flags := rfl
  pc := rfl
  console := ⟨rfl, rfl, rfl, rfl⟩
  control := ⟨rfl, rfl, rfl, rfl, rfl⟩

theorem State.setPc_transfers (s : State) (t : Word) : Transfers t [] s (s.setPc t) where
  pc := rfl
  regs := fun _ _ => rfl
  flags := rfl
  memory := fun _ => rfl
  console := ⟨rfl, rfl, rfl, rfl⟩
  control := ⟨rfl, rfl, rfl, rfl, rfl⟩

theorem State.link_setPc_transfers (s : State) (t : Word) : Transfers t [7] s (s.link.setPc t) where
  pc := rfl
  regs := fun r hr => by
    rw [State.setPc_reg, State.reg_link, if_neg (by simpa [linkReg] using hr)]
  flags := rfl
  memory := fun _ => rfl
  console := ⟨rfl, rfl, rfl, rfl⟩
  control := ⟨rfl, rfl, rfl, rfl, rfl⟩

/-- An error leaves exactly the history, the parameters and the host's side as they were. -/
theorem State.raise_stops (s : State) (e : StopReason) : StopsWith e [] 0 s (s.raise e) where
  runState := rfl
  stopReason := rfl
  out := by simp
  inConsumed := rfl
  params := rfl

theorem StopsWith.of_wrote {e : StopReason} {bs : List Byte} {s t : State} (h : StopsWith e [] 0 (s.wrote bs) t) :
    StopsWith e bs 0 s t :=
  ⟨h.runState, h.stopReason, by simpa using h.out, h.inConsumed, h.params⟩

theorem State.raise_mem_wf (s : State) (e : StopReason) : (s.raise e).mem.wf :=
  Memory.writeAll_wf Memory.nil_wf _

end Sys2Proof.Machine
end

