-- ==== Sys2Proof/Laws/Trap.lean ====
section
/-! SUPPORT. What the trap routines can do: how a string is read, how each routine ends, and what a TRAP makes of
it. -/

namespace Sys2Proof.Machine

/-! ### Strings -/

theorem ofNat_succ_add (a : Word) (j : Nat) : a + BitVec.ofNat 16 (j + 1) = a + 1 + BitVec.ofNat 16 j := by
  rw [show BitVec.ofNat 16 (j + 1) = 1 + BitVec.ofNat 16 j by rw [Nat.add_comm, BitVec.ofNat_add]; rfl, ← BitVec.add_assoc]

/-- A string whose zero word is within reach: its words, and the end found. -/
theorem scanString_ended (m : Memory) (fuel k : Nat) (a : Word) (hk : k < fuel)
    (hne : ∀ j, j < k → m.read (a + BitVec.ofNat 16 j) ≠ 0) (hz : m.read (a + BitVec.ofNat 16 k) = 0) :
    scanString m fuel a = ((List.range k).map (fun j => m.read (a + BitVec.ofNat 16 j)), true) := by
  induction fuel generalizing k a with
  | zero => omega
  | succ fuel ih =>
    cases k with
    | zero =>
      have : m.read a = 0#16 := by simpa using hz
      simp [scanString, this]
    | succ k =>
      have h0 : m.read a ≠ 0#16 := by simpa using hne 0 (by omega)
      have hne' : ∀ j, j < k → m.read (a + 1 + BitVec.ofNat 16 j) ≠ 0 := fun j hj => by
        rw [← ofNat_succ_add]; exact hne (j + 1) (by omega)
      have hz' : m.read (a + 1 + BitVec.ofNat 16 k) = 0 := by rw [← ofNat_succ_add]; exact hz
      rw [scanString, if_neg h0, ih k (a + 1) (by omega) hne' hz', List.range_succ_eq_map]
      simp only [List.map_cons, List.map_map, Function.comp_def, Nat.succ_eq_add_one, ofNat_succ_add]
      simp

/-- No zero word within reach: all the words, and no end found. -/
theorem scanString_unended (m : Memory) (fuel : Nat) (a : Word)
    (hne : ∀ j, j < fuel → m.read (a + BitVec.ofNat 16 j) ≠ 0) :
    scanString m fuel a = ((List.range fuel).map (fun j => m.read (a + BitVec.ofNat 16 j)), false) := by
  induction fuel generalizing a with
  | zero => simp [scanString]
  | succ fuel ih =>
    have h0 : m.read a ≠ 0#16 := by simpa using hne 0 (by omega)
    have hne' : ∀ j, j < fuel → m.read (a + 1 + BitVec.ofNat 16 j) ≠ 0 := fun j hj => by
      rw [← ofNat_succ_add]; exact hne (j + 1) (by omega)
    rw [scanString, if_neg h0, ih (a + 1) hne', List.range_succ_eq_map]
    simp only [List.map_cons, List.map_map, Function.comp_def, Nat.succ_eq_add_one, ofNat_succ_add]
    simp

theorem State.stringAtR0_ended (s : State) (k : Nat) (hk : k < 65536) (h : StringOf s (s.reg 0) k) :
    s.stringAtR0 = (wordsFrom s (s.reg 0) k, true) :=
  scanString_ended s.mem 65536 k (s.reg 0) hk h.1 h.2

theorem State.stringAtR0_unended (s : State) (h : ∀ a, s.memRead a ≠ 0) :
    s.stringAtR0 = (wordsFrom s (s.reg 0) 65536, false) :=
  scanString_unended s.mem 65536 (s.reg 0) fun _ _ => h _

theorem putsBytes_eq (w : Word) : putsBytes w = putsText w := by
  simp only [putsBytes, putsText, lowByte, List.cons.injEq, and_true]
  apply BitVec.eq_of_toNat_eq
  simp

theorem putspBytes_eq (w : Word) : putspBytes w = putspText w := by
  have hlo : lowByte w = BitVec.ofNat 8 (w.toNat % 256) := by
    apply BitVec.eq_of_toNat_eq; simp [lowByte]
  have hhi : highByte w = BitVec.ofNat 8 (w.toNat / 256) := by
    apply BitVec.eq_of_toNat_eq; simp [highByte, Nat.shiftRight_eq_div_pow]
  have hz : highByte w = 0#8 ↔ w.toNat / 256 = 0 := by
    rw [hhi, ← BitVec.toNat_inj]
    have := w.isLt
    simp only [BitVec.toNat_ofNat]
    omega
  unfold putspBytes putspText
  by_cases h : w.toNat / 256 = 0
  · rw [if_pos (hz.mpr h), if_pos h, hlo]
  · rw [if_neg (fun e => h (hz.mp e)), if_neg h, hlo, hhi]

/-! ### How a TRAP ends -/

theorem trapCall_done {r : State → RoutineResult} {s s' : State} (h : r s.link = .done s') :
    trapCall r s = .next s'.trapReturn := by simp [trapCall, h]

theorem trapCall_error {r : State → RoutineResult} {s s' : State} {e : StopReason} (h : r s.link = .error e s') :
    trapCall r s = .next (s'.raise e) := by simp [trapCall, h]

theorem trapCall_unfinished {r : State → RoutineResult} {s s' : State} {p : Progress}
    (h : r s.link = .unfinished p s') : trapCall r s = .next (State.suspend s s' p) := by simp [trapCall, h]

/-- Everything a TRAP can do: its routine completes, raises an error, or has not completed. -/
theorem trapCall_cases (r : State → RoutineResult) (s : State) :
    (∃ s', r s.link = .done s' ∧ trapCall r s = .next s'.trapReturn) ∨
    (∃ e s', r s.link = .error e s' ∧ trapCall r s = .next (s'.raise e)) ∨
    (∃ p s', r s.link = .unfinished p s' ∧ trapCall r s = .next (State.suspend s s' p)) := by
  unfold trapCall
  cases r s.link <;> simp

/-! ### How each routine ends -/

/-- Everything GETC can do (R122). -/
theorem getcRoutine_cases (s : State) :
    (∃ rest, rest = s.hostReads.tail ∧ (s.hostReads = [] ∨ s.hostReads = .notYet :: rest) ∧
      getcRoutine s = .unfinished .getcHeld (s.tookAnswer rest 0)) ∨
    (∃ rest, s.hostReads = .failed :: rest ∧ getcRoutine s = .error .ioReadError (s.tookAnswer rest 0)) ∨
    (∃ b rest, s.hostReads = .byte b :: rest ∧ getcRoutine s = .done ((s.tookAnswer rest 1).deliver b)) := by
  rcases s.consoleRead_cases with ⟨h, e⟩ | ⟨rest, h, e⟩ | ⟨rest, h, e⟩ | ⟨b, rest, h, e⟩
  · refine .inl ⟨[], by simp [h], .inl h, ?_⟩
    rw [getcRoutine, e]; cases s; simp_all [State.tookAnswer]
  · exact .inl ⟨rest, by simp [h], .inr h, by simp [getcRoutine, e]⟩
  · exact .inr (.inl ⟨rest, h, by simp [getcRoutine, e]⟩)
  · exact .inr (.inr ⟨b, rest, h, by simp [getcRoutine, e]⟩)

/-- Everything OUT can do (R123). -/
theorem outRoutine_cases (s : State) :
    (s.accepts 1 = true ∧ outRoutine s = .done (s.wrote [lowByte (s.reg 0)])) ∨
    (s.accepts 1 = false ∧ outRoutine s = .error .ioWriteError s) := by
  unfold outRoutine
  rw [State.consoleWrite_eq]
  cases h : s.accepts 1 <;> simp [trapReg]

/-- Everything PUTS and PUTSP can do (R124, R126): the bytes of the words found are all written, or a proper part of
them and then a failure. -/
theorem writeString_cases (bytes : Word → List Byte) (p : Progress) (s : State) :
    (s.accepts (s.stringAtR0.1.flatMap bytes).length = true ∧
      writeString bytes p s =
        if s.stringAtR0.2 then .done (s.wrote (s.stringAtR0.1.flatMap bytes))
        else .unfinished p (s.wrote (s.stringAtR0.1.flatMap bytes))) ∨
    (∃ k, s.writeBudget = some k ∧ k < (s.stringAtR0.1.flatMap bytes).length ∧
      writeString bytes p s = .error .ioWriteError (s.wrote ((s.stringAtR0.1.flatMap bytes).take k))) := by
  rcases s.consoleWriteAll_cases (s.stringAtR0.1.flatMap bytes) with ⟨h, e⟩ | ⟨k, hk, hlt, e⟩
  · exact .inl ⟨h, by simp [writeString, e]⟩
  · exact .inr ⟨k, hk, hlt, by simp [writeString, e]⟩

/-- Everything IN can do (R125, R146), in the order of its pseudocode. -/
theorem inRoutine_cases (s : State) :
    (∃ k, s.writeBudget = some k ∧ k < s.promptLeft.length ∧
      inRoutine s = .error .ioWriteError (s.wrote (s.promptLeft.take k))) ∨
    (s.accepts s.promptLeft.length = true ∧
      ((∃ rest, rest = s.hostReads.tail ∧ (s.hostReads = [] ∨ s.hostReads = .notYet :: rest) ∧
          inRoutine s = .unfinished .inHeld ((s.wrote s.promptLeft).tookAnswer rest 0)) ∨
       (∃ rest, s.hostReads = .failed :: rest ∧
          inRoutine s = .error .ioReadError ((s.wrote s.promptLeft).tookAnswer rest 0)) ∨
       (∃ b rest, s.hostReads = .byte b :: rest ∧
          (s.accepts (s.promptLeft.length + 1) = false ∧
            inRoutine s = .error .ioWriteError ((s.wrote s.promptLeft).tookAnswer rest 1) ∨
           s.accepts (s.promptLeft.length + 1) = true ∧
            inRoutine s = .done ((((s.wrote s.promptLeft).tookAnswer rest 1).wrote [b]).deliver b))))) := by
  rcases s.consoleWriteAll_cases s.promptLeft with ⟨h, e⟩ | ⟨k, hk, hlt, e⟩
  · refine .inr ⟨h, ?_⟩
    rcases (s.wrote s.promptLeft).consoleRead_cases with ⟨hr, er⟩ | ⟨rest, hr, er⟩ | ⟨rest, hr, er⟩ | ⟨b, rest, hr, er⟩
    · refine .inl ⟨[], by simp_all, .inl hr, ?_⟩
      have : (s.wrote s.promptLeft).tookAnswer [] 0 = s.wrote s.promptLeft := by
        cases hs : s.wrote s.promptLeft; simp_all [State.tookAnswer]
      simp [inRoutine, e, er, this]
    · exact .inl ⟨rest, by simp_all, .inr hr, by simp [inRoutine, e, er]⟩
    · exact .inr (.inl ⟨rest, hr, by simp [inRoutine, e, er]⟩)
    · refine .inr (.inr ⟨b, rest, hr, ?_⟩)
      have ha : ((s.wrote s.promptLeft).tookAnswer rest 1).accepts 1 = s.accepts (s.promptLeft.length + 1) := by
        rw [← s.wrote_accepts _ _ h]; rfl
      cases hacc : s.accepts (s.promptLeft.length + 1) with
      | false => exact .inl ⟨rfl, by simp [inRoutine, e, er, State.consoleWrite_eq, ha, hacc]⟩
      | true => exact .inr ⟨rfl, by simp [inRoutine, e, er, State.consoleWrite_eq, ha, hacc]⟩
  · exact .inl ⟨k, hk, hlt, by simp [inRoutine, e]⟩

/-- The dispatch table on the six vectors, and on every other one (R121). -/
theorem dispatch_cases (v : BitVec 8) :
    (v = 0x20#8 ∧ dispatch v = getcRoutine) ∨ (v = 0x21#8 ∧ dispatch v = outRoutine) ∨
    (v = 0x22#8 ∧ dispatch v = putsRoutine) ∨ (v = 0x23#8 ∧ dispatch v = inRoutine) ∨
    (v = 0x24#8 ∧ dispatch v = putspRoutine) ∨ (v = 0x25#8 ∧ dispatch v = haltRoutine) ∨
    (definedVector v = false ∧ dispatch v = RoutineResult.error (.undefinedTrapVector v)) := by
  by_cases h0 : v = 0x20#8
  · subst h0; exact .inl ⟨rfl, rfl⟩
  by_cases h1 : v = 0x21#8
  · subst h1; exact .inr (.inl ⟨rfl, rfl⟩)
  by_cases h2 : v = 0x22#8
  · subst h2; exact .inr (.inr (.inl ⟨rfl, rfl⟩))
  by_cases h3 : v = 0x23#8
  · subst h3; exact .inr (.inr (.inr (.inl ⟨rfl, rfl⟩)))
  by_cases h4 : v = 0x24#8
  · subst h4; exact .inr (.inr (.inr (.inr (.inl ⟨rfl, rfl⟩))))
  by_cases h5 : v = 0x25#8
  · subst h5; exact .inr (.inr (.inr (.inr (.inr (.inl ⟨rfl, rfl⟩)))))
  · refine .inr (.inr (.inr (.inr (.inr (.inr ⟨?_, ?_⟩)))))
    · rw [← BitVec.toNat_inj] at h0 h1 h2 h3 h4 h5
      simp only [definedVector, decide_eq_false_iff_not]
      simp only [BitVec.toNat_ofNat] at h0 h1 h2 h3 h4 h5
      omega
    · funext s; simp [dispatch, h0, h1, h2, h3, h4, h5]

end Sys2Proof.Machine
end

