-- ==== Sys2Proof/Laws/Exec.lean ====
section
/-! SUPPORT. Everything an instruction can do, said once, so that a claim about every instruction is a case analysis
over a few effects and not over the instructions; and the laws of runs and of signed offsets. -/

namespace Sys2Proof.Machine

/-! ### Offsets -/

theorem toInt_sext {n : Nat} (v : BitVec n) (h : n ≤ 16) : (sext v).toInt = v.toInt :=
  BitVec.toInt_signExtend_of_le h

theorem ofInt_toInt_eq_sext {n : Nat} (v : BitVec n) (h : n ≤ 16) : BitVec.ofInt 16 v.toInt = sext v := by
  rw [← toInt_sext v h, BitVec.ofInt_toInt]

/-- An effective address, as signed arithmetic and as the sum the meanings compute. -/
theorem offsetBy_eq {n : Nat} (a : Word) (v : BitVec n) (h : n ≤ 16) : offsetBy a v = a + sext v := by
  unfold offsetBy
  rw [BitVec.ofInt_add, ofInt_toInt_eq_sext v h, BitVec.ofInt_natCast, BitVec.ofNat_toNat]
  simp

/-! ### Runs -/

theorem run_succ {s t : State} (n : Nat) (h : step s = .next t) : core.run (n + 1) s = core.run n t := by
  have h' : core.step s = .next t := h
  simp only [Host.Core.run, h']

/-! ### Effects -/

/-- What an instruction can do to the state after the fetch, with what its syntax then says of it. -/
inductive Effect (i : Instr) (s : State) : State → Prop
  /-- It writes a result to a destination register and sets the flags. -/
  | result (dr : Reg) (v : Word) : i.resultReg = some dr → i.mayWrite dr = true → storesTo i s = none →
      Effect i s (s.setResult dr v)
  /-- It stores a word. -/
  | store (a v : Word) : storesTo i s = some (a, v) → i.resultReg = none → Effect i s (s.memWrite a v)
  /-- It writes the pc (a branch that is not taken writes the value the pc has). -/
  | jump (v : Word) : i.transfersControl = true → i.resultReg = none → storesTo i s = none →
      Effect i s (s.setPc v)
  /-- It links and writes the pc. -/
  | call (v : Word) : i.transfersControl = true → i.resultReg = none → storesTo i s = none →
      i.mayWrite 7 = true → Effect i s (s.link.setPc v)
  /-- It raises an error. -/
  | error (e : StopReason) (u : State) : e.isError = true → Effect i s (u.raise e)
  /-- A trap routine completes with a console byte in R0. -/
  | delivered (b : Byte) (u : State) : i.resultReg = some 0 ∨ i.wf = false → i.mayWrite 0 = true →
      i.mayWrite 7 = true → storesTo i s = none → u.regs = s.link.regs → u.pc = s.pc → u.mem = s.mem →
      u.flags = s.flags → Effect i s (u.deliver b).trapReturn
  /-- A trap routine completes without a result. -/
  | completed (u : State) : i.resultReg = none → i.mayWrite 7 = true → storesTo i s = none →
      u.regs = s.link.regs → u.pc = s.pc → u.mem = s.mem → u.flags = s.flags → Effect i s u.trapReturn
  /-- A TRAP has not completed, and the mark names it. -/
  | unfinished (p : Progress) (u : State) : p ≠ .idle → i.opcode = 0xF → (i.wf = true → p.instr = some i) →
      storesTo i s = none → u.mem = s.mem → u.flags = s.flags → Effect i s (State.suspend s u p)

section

variable {i : Instr} {s t : State}

theorem getc_effect (ho : i.opcode = 0xF) (hw : i.wf = true → Progress.getcHeld.instr = some i)
    (h0 : i.resultReg = some 0 ∨ i.wf = false) (hr : i.mayWrite 0 = true) (h7 : i.mayWrite 7 = true)
    (hs : storesTo i s = none) (h : trapCall getcRoutine s = .next t) : Effect i s t := by
  rcases getcRoutine_cases s.link with ⟨_, _, _, e⟩ | ⟨_, _, e⟩ | ⟨_, _, _, e⟩
  · rw [trapCall_unfinished e] at h; cases h; exact .unfinished _ _ (by decide) ho hw hs rfl rfl
  · rw [trapCall_error e] at h; cases h; exact .error _ _ rfl
  · rw [trapCall_done e] at h; cases h; exact .delivered _ _ h0 hr h7 hs rfl rfl rfl rfl

theorem in_effect (ho : i.opcode = 0xF) (hw : i.wf = true → Progress.inHeld.instr = some i)
    (h0 : i.resultReg = some 0 ∨ i.wf = false) (hr : i.mayWrite 0 = true) (h7 : i.mayWrite 7 = true)
    (hs : storesTo i s = none) (h : trapCall inRoutine s = .next t) : Effect i s t := by
  rcases inRoutine_cases s.link with
    ⟨_, _, _, e⟩ | ⟨_, ⟨_, _, _, e⟩ | ⟨_, _, e⟩ | ⟨_, _, _, ⟨_, e⟩ | ⟨_, e⟩⟩⟩
  · rw [trapCall_error e] at h; cases h; exact .error _ _ rfl
  · rw [trapCall_unfinished e] at h; cases h; exact .unfinished _ _ (by decide) ho hw hs rfl rfl
  · rw [trapCall_error e] at h; cases h; exact .error _ _ rfl
  · rw [trapCall_error e] at h; cases h; exact .error _ _ rfl
  · rw [trapCall_done e] at h; cases h; exact .delivered _ _ h0 hr h7 hs rfl rfl rfl rfl

theorem out_effect (h0 : i.resultReg = none) (h7 : i.mayWrite 7 = true) (hs : storesTo i s = none)
    (h : trapCall outRoutine s = .next t) : Effect i s t := by
  rcases outRoutine_cases s.link with ⟨_, e⟩ | ⟨_, e⟩
  · rw [trapCall_done e] at h; cases h; exact .completed _ h0 h7 hs rfl rfl rfl rfl
  · rw [trapCall_error e] at h; cases h; exact .error _ _ rfl

theorem string_effect {bytes : Word → List Byte} {p : Progress} (hp : p ≠ .idle) (ho : i.opcode = 0xF)
    (hw : i.wf = true → p.instr = some i) (h0 : i.resultReg = none) (h7 : i.mayWrite 7 = true) (hs : storesTo i s = none) (h : trapCall (writeString bytes p) s = .next t) :
    Effect i s t := by
  rcases writeString_cases bytes p s.link with ⟨_, e⟩ | ⟨_, _, _, e⟩
  · cases hz : s.link.stringAtR0.2 <;> simp only [hz, if_true, Bool.false_eq_true, if_false] at e
    · rw [trapCall_unfinished e] at h; cases h; exact .unfinished _ _ hp ho hw hs rfl rfl
    · rw [trapCall_done e] at h; cases h; exact .completed _ h0 h7 hs rfl rfl rfl rfl
  · rw [trapCall_error e] at h; cases h; exact .error _ _ rfl

theorem halt_effect (h0 : i.resultReg = none) (h7 : i.mayWrite 7 = true) (hs : storesTo i s = none)
    (h : trapCall haltRoutine s = .next t) : Effect i s t := by
  cases h; exact .completed _ h0 h7 hs rfl rfl rfl rfl

/-- Everything an instruction can do. -/
theorem exec_effect (h : exec i s = .next t) : Effect i s t := by
  cases i with
  | trap v =>
    have hw : definedVector v = true → (Instr.trap v).wf = false := fun hv => by simp [Instr.wf, hv]
    have no {p : Progress} (hv : definedVector v = true) :
        (Instr.trap v).wf = true → p.instr = some (.trap v) := fun h => by simp [hw hv] at h
    have h7 : (Instr.trap v).mayWrite 7 = true := by simp [Instr.mayWrite]
    have h0 : (Instr.trap v).mayWrite 0 = true := by simp [Instr.mayWrite]
    simp only [exec, execTrap] at h
    rcases dispatch_cases v with
      ⟨rfl, e⟩ | ⟨rfl, e⟩ | ⟨rfl, e⟩ | ⟨rfl, e⟩ | ⟨rfl, e⟩ | ⟨rfl, e⟩ | ⟨_, e⟩ <;> rw [e] at h
    · exact getc_effect rfl (no (by decide)) (.inr (hw (by decide))) h0 h7 rfl h
    · exact out_effect rfl h7 rfl h
    · exact string_effect (by decide) rfl (no (by decide)) rfl h7 rfl h
    · exact in_effect rfl (no (by decide)) (.inr (hw (by decide))) h0 h7 rfl h
    · exact string_effect (by decide) rfl (no (by decide)) rfl h7 rfl h
    · exact halt_effect rfl h7 rfl h
    · rw [trapCall_error rfl] at h; cases h; exact .error _ _ rfl
  | trapGetc => exact getc_effect rfl (fun _ => rfl) (.inl rfl) rfl rfl rfl h
  | trapOut => exact out_effect rfl rfl rfl h
  | trapPuts => exact string_effect (by decide) rfl (fun _ => rfl) rfl rfl rfl h
  | trapIn => exact in_effect rfl (fun _ => rfl) (.inl rfl) rfl rfl rfl h
  | trapPutsp => exact string_effect (by decide) rfl (fun _ => rfl) rfl rfl rfl h
  | trapHalt => exact halt_effect rfl rfl rfl h
  | br n z p off =>
    cases h
    split_ifs
    · exact .jump _ rfl rfl rfl
    · exact .jump s.pc rfl rfl rfl
  | jsrr base => cases h; split_ifs <;> exact .call _ rfl rfl rfl (by simp [Instr.mayWrite])
  | _ =>
    cases h
    first
      | exact .result _ _ rfl (by simp [Instr.mayWrite]) rfl
      | exact .store _ _ rfl rfl
      | exact .jump _ rfl rfl rfl
      | exact .call _ rfl rfl rfl (by simp [Instr.mayWrite])
      | exact .error _ _ rfl

end

end Sys2Proof.Machine
end

