-- ==== Sys2Proof/Laws/PerInstr.lean ====
section
/-! SUPPORT. A law made for every instruction by name: the word the encoder writes carries the fixed bits of the
instruction's row of spec/opcode_table.json. -/

namespace Sys2Proof.Laws.OpcodeRow

/-- The mask and the match of an instruction's row. The row TRAP fixes the opcode only; its six rows with a vector fix
the vector too. -/
def row : Instr → Word × Word
  | .br _ _ _ _ => (0xF000, 0x0000)
  | .addReg _ _ _ => (0xF020, 0x1000)
  | .addImm _ _ _ => (0xF020, 0x1020)
  | .ld _ _ => (0xF000, 0x2000)
  | .st _ _ => (0xF000, 0x3000)
  | .jsr _ => (0xF800, 0x4800)
  | .jsrr _ => (0xF800, 0x4000)
  | .andReg _ _ _ => (0xF020, 0x5000)
  | .andImm _ _ _ => (0xF020, 0x5020)
  | .ldr _ _ _ => (0xF000, 0x6000)
  | .str _ _ _ => (0xF000, 0x7000)
  | .reserved8 => (0xF000, 0x8000)
  | .not _ _ => (0xF000, 0x9000)
  | .ldi _ _ => (0xF000, 0xA000)
  | .sti _ _ => (0xF000, 0xB000)
  | .jmp _ => (0xF000, 0xC000)
  | .reservedD => (0xF000, 0xD000)
  | .lea _ _ => (0xF000, 0xE000)
  | .trap _ => (0xF000, 0xF000)
  | .trapGetc => (0xF0FF, 0xF020)
  | .trapOut => (0xF0FF, 0xF021)
  | .trapPuts => (0xF0FF, 0xF022)
  | .trapIn => (0xF0FF, 0xF023)
  | .trapPutsp => (0xF0FF, 0xF024)
  | .trapHalt => (0xF0FF, 0xF025)

/-- The word of an instruction has the fixed bits of its row. -/
def Statement (i : Instr) : Prop := encode i &&& (row i).1 = (row i).2

/-- A field has no bit under a mask that is clear where the field lies. -/
theorem atBit_and_eq_zero {n : Nat} (lo : Nat) (v : BitVec n) (m : Word)
    (h : ∀ k, k < n → m.getLsbD (lo + k) = false) : atBit lo v &&& m = 0#16 := by
  refine BitVec.eq_of_getLsbD_eq fun k _ => ?_
  rw [BitVec.getLsbD_and, getLsbD_atBit, BitVec.getLsbD_zero]
  by_cases hn : lo ≤ k ∧ k - lo < n
  · rw [show k = lo + (k - lo) by omega, h _ hn.2, Bool.and_false]
  · by_cases hl : lo ≤ k
    · rw [BitVec.getLsbD_of_ge v _ (by omega)]; simp
    · simp [hl]

theorem or_and_mask (v w m : Word) : (v ||| w) &&& m = v &&& m ||| w &&& m := by
  refine BitVec.eq_of_getLsbD_eq fun k _ => ?_
  simp only [BitVec.getLsbD_and, BitVec.getLsbD_or, Bool.and_or_distrib_right]

theorem br (n z p : Bool) (off : BitVec 9) : Statement (.br n z p off) := by
  simp (disch := decide) only [Statement, encode, row, or_and_mask, atBit_and_eq_zero]
  rfl

theorem addReg (dr sr1 sr2 : Reg) : Statement (.addReg dr sr1 sr2) := by
  simp (disch := decide) only [Statement, encode, row, or_and_mask, atBit_and_eq_zero]
  rfl

theorem addImm (dr sr1 : Reg) (imm : BitVec 5) : Statement (.addImm dr sr1 imm) := by
  simp (disch := decide) only [Statement, encode, row, or_and_mask, atBit_and_eq_zero]
  rfl

theorem ld (dr : Reg) (off : BitVec 9) : Statement (.ld dr off) := by
  simp (disch := decide) only [Statement, encode, row, or_and_mask, atBit_and_eq_zero]
  rfl

theorem st (sr : Reg) (off : BitVec 9) : Statement (.st sr off) := by
  simp (disch := decide) only [Statement, encode, row, or_and_mask, atBit_and_eq_zero]
  rfl

theorem jsr (off : BitVec 11) : Statement (.jsr off) := by
  simp (disch := decide) only [Statement, encode, row, or_and_mask, atBit_and_eq_zero]
  rfl

theorem jsrr (base : Reg) : Statement (.jsrr base) := by
  simp (disch := decide) only [Statement, encode, row, or_and_mask, atBit_and_eq_zero]
  rfl

theorem andReg (dr sr1 sr2 : Reg) : Statement (.andReg dr sr1 sr2) := by
  simp (disch := decide) only [Statement, encode, row, or_and_mask, atBit_and_eq_zero]
  rfl

theorem andImm (dr sr1 : Reg) (imm : BitVec 5) : Statement (.andImm dr sr1 imm) := by
  simp (disch := decide) only [Statement, encode, row, or_and_mask, atBit_and_eq_zero]
  rfl

theorem ldr (dr base : Reg) (off : BitVec 6) : Statement (.ldr dr base off) := by
  simp (disch := decide) only [Statement, encode, row, or_and_mask, atBit_and_eq_zero]
  rfl

theorem str (sr base : Reg) (off : BitVec 6) : Statement (.str sr base off) := by
  simp (disch := decide) only [Statement, encode, row, or_and_mask, atBit_and_eq_zero]
  rfl

theorem reserved8 : Statement .reserved8 := rfl

theorem not (dr sr : Reg) : Statement (.not dr sr) := by
  simp (disch := decide) only [Statement, encode, row, or_and_mask, atBit_and_eq_zero]
  rfl

theorem ldi (dr : Reg) (off : BitVec 9) : Statement (.ldi dr off) := by
  simp (disch := decide) only [Statement, encode, row, or_and_mask, atBit_and_eq_zero]
  rfl

theorem sti (sr : Reg) (off : BitVec 9) : Statement (.sti sr off) := by
  simp (disch := decide) only [Statement, encode, row, or_and_mask, atBit_and_eq_zero]
  rfl

theorem jmp (base : Reg) : Statement (.jmp base) := by
  simp (disch := decide) only [Statement, encode, row, or_and_mask, atBit_and_eq_zero]
  rfl

theorem reservedD : Statement .reservedD := rfl

theorem lea (dr : Reg) (off : BitVec 9) : Statement (.lea dr off) := by
  simp (disch := decide) only [Statement, encode, row, or_and_mask, atBit_and_eq_zero]
  rfl

theorem trap (v : BitVec 8) : Statement (.trap v) := by
  simp (disch := decide) only [Statement, encode, encodeTrap, row, or_and_mask, atBit_and_eq_zero]
  rfl

theorem trapGetc : Statement .trapGetc := rfl

theorem trapOut : Statement .trapOut := rfl

theorem trapPuts : Statement .trapPuts := rfl

theorem trapIn : Statement .trapIn := rfl

theorem trapPutsp : Statement .trapPutsp := rfl

theorem trapHalt : Statement .trapHalt := rfl

end Sys2Proof.Laws.OpcodeRow
end

