-- ==== Sys2Proof/Tests/Slice0.lean ====
section
/-! SUPPORT. Tests. Expected results are those of spec/95_test_vectors.md (the vector's name stands in each comment)
and the encodings of spec/30_encoding.md; none comes from the model. Then, for each statement with hypotheses, a
concrete input that meets them (theorems named after the statement). -/

namespace Sys2Proof.Tests

open Sys2Proof.Machine

/-! ### Helpers -/

/-- A running machine: pc, the words of memory, and the registers that are not 0; no flag is set. -/
def start (pc : Word) (cells : List (Word × Word)) (regs : List (Reg × Word)) : State :=
  regs.foldl (fun s r => s.setReg r.1 r.2) { State.reset with pc := pc, mem := Memory.writeAll [] cells }

/-- Flags N, Z, P, one true. -/
def flagN : Flags := { n := true, z := false, p := false }
def flagZ : Flags := { n := false, z := true, p := false }
def flagP : Flags := { n := false, z := false, p := true }

/-- A check on the state one step later. -/
def after (s : State) (check : State → Bool) : Bool :=
  match step s with
  | .next t => check t
  | .fault _ => false
  | .refused _ => false

/-! ### WellFormed: the one check, with a term it refuses for each vector it names -/

theorem test_wf_refuses_vectors_with_their_own_row :
    (Instr.trap 0x20).wf = false ∧ (Instr.trap 0x21).wf = false ∧ (Instr.trap 0x22).wf = false ∧
    (Instr.trap 0x23).wf = false ∧ (Instr.trap 0x24).wf = false ∧ (Instr.trap 0x25).wf = false := by decide

theorem test_wf_accepts_the_other_vectors :
    (Instr.trap 0x1F).wf = true ∧ (Instr.trap 0x26).wf = true ∧ (Instr.trap 0x00).wf = true ∧
    (Instr.trap 0xFF).wf = true ∧ Instr.trapHalt.wf = true := by decide

/-! ### Decode: every constructor, from the fields of 30_encoding.md R51 and the opcodes of R54 -/

theorem test_decode_operate :
    decodeWord 0b0001_101_011_0_00_110#16 = .addReg 5 3 6 ∧
    decodeWord 0b0001_101_011_1_10011#16 = .addImm 5 3 0b10011 ∧
    decodeWord 0b0101_001_110_0_11_010#16 = .andReg 1 6 2 ∧
    decodeWord 0b0101_001_110_1_01110#16 = .andImm 1 6 0b01110 ∧
    decodeWord 0b1001_100_001_111111#16 = .not 4 1 := by decide

theorem test_decode_control :
    decodeWord 0b0000_1_0_0_000000101#16 = .br true false false 5 ∧
    decodeWord 0b0000_0_1_0_100000000#16 = .br false true false 0b100000000 ∧
    decodeWord 0b0000_0_0_1_011111111#16 = .br false false true 0b011111111 ∧
    decodeWord 0b1100_000_101_000000#16 = .jmp 5 ∧
    decodeWord 0b0100_1_10000000001#16 = .jsr 0b10000000001 ∧
    decodeWord 0b0100_0_00_011_000000#16 = .jsrr 3 := by decide

theorem test_decode_memory :
    decodeWord 0b0010_011_100000001#16 = .ld 3 0b100000001 ∧
    decodeWord 0b1010_110_000000010#16 = .ldi 6 2 ∧
    decodeWord 0b0110_001_010_100001#16 = .ldr 1 2 0b100001 ∧
    decodeWord 0b1110_111_111111110#16 = .lea 7 0b111111110 ∧
    decodeWord 0b0011_100_000000011#16 = .st 4 3 ∧
    decodeWord 0b1011_101_100000000#16 = .sti 5 0b100000000 ∧
    decodeWord 0b0111_010_001_011110#16 = .str 2 1 0b011110 := by decide

theorem test_decode_trap_and_reserved :
    decodeWord 0b1111_0000_00100000#16 = .trapGetc ∧ decodeWord 0b1111_0000_00100001#16 = .trapOut ∧
    decodeWord 0b1111_0000_00100010#16 = .trapPuts ∧ decodeWord 0b1111_0000_00100011#16 = .trapIn ∧
    decodeWord 0b1111_0000_00100100#16 = .trapPutsp ∧ decodeWord 0b1111_0000_00100101#16 = .trapHalt ∧
    decodeWord 0b1111_0000_00100110#16 = .trap 0x26 ∧ decodeWord 0b1111_1010_00011111#16 = .trap 0x1F ∧
    decodeWord 0b1000_101010101010#16 = .reserved8 ∧ decodeWord 0b1101_010101010101#16 = .reservedD := by decide

/-- R57: the ignored bits, at values no assembler writes (A6, A15, J3, T14). -/
theorem test_decode_ignores_unread_bits :
    decodeWord 0x105A = decodeWord 0x1042 ∧ decodeWord 0x9480 = decodeWord 0x94BF ∧
    decodeWord 0xCFBF = decodeWord 0xC180 ∧ decodeWord 0x463F = decodeWord 0x4000 ∧
    decodeWord 0xF125 = decodeWord 0xF025 := by decide

/-- The words of R61 and of the programs, from the encoder. -/
theorem test_encode_words_of_the_spec :
    encode (.jmp 7) = 0xC1C0 ∧ encode (.br false false false 0) = 0x0000 ∧ encode .trapHalt = 0xF025 ∧
    encode (.andImm 0 0 0) = 0x5020 ∧ encode (.addImm 0 0 5) = 0x1025 ∧ encode (.lea 0 3) = 0xE003 ∧
    encode (.not 2 2) = 0x94BF ∧ encode (.ldr 2 1 1) = 0x6441 ∧ encode (.jsr 3) = 0x4803 ∧
    encode (.jsrr 2) = 0x4080 := by decide

/-- A word that is not 16 bits wide is no instruction (R50). -/
theorem test_decodeTableWord_takes_one_word :
    decodeTableWord 16 0xF025 = some .trapHalt ∧ decodeTableWord 16 0x10000 = none ∧
    decodeTableWord 32 0xF025 = none := by decide

/-- A word of each row of the opcode table runs as the first instruction after reset. -/
theorem test_withFetchWord_runs_every_row :
    ([0x0E05, 0x1042, 0x1025, 0x2406, 0x3202, 0x4803, 0x4080, 0x5042, 0x5020, 0x6441, 0x7440, 0x8000, 0x94BF,
      0xA608, 0xB608, 0xC1C0, 0xD000, 0xE003, 0xF026, 0xF020, 0xF021, 0xF022, 0xF023, 0xF024, 0xF025].all fun w =>
      after (State.reset.withFetchWord 16 w) fun _ => true) = true := by decide

/-! ### Sign extension (X1 to X6) -/

theorem test_sext :
    sext 0x10#5 = 0xFFF0#16 ∧ sext 0x0F#5 = 0x000F#16 ∧ sext 0x20#6 = 0xFFE0#16 ∧ sext 0x100#9 = 0xFF00#16 ∧
    sext 0x1FF#9 = 0xFFFF#16 ∧ sext 0x400#11 = 0xFC00#16 := by decide

/-! ### One step on each instruction -/

/-- A4. -/
theorem test_addReg_loses_the_carry :
    (after (start 0x3000 [(0x3000, 0x1042)] [(1, 0xFFFF), (2, 0x0001)]) fun t =>
      t.reg 0 == 0x0000 && t.flags == flagZ && t.pc == 0x3001) = true := by decide

/-- A5. -/
theorem test_addReg_reads_before_it_writes :
    (after (start 0x3000 [(0x3000, 0x1241)] [(1, 0x4000)]) fun t => t.reg 1 == 0x8000 && t.flags == flagN) = true := by
  decide

/-- A1. -/
theorem test_addImm_wraps :
    (after (start 0x3000 [(0x3000, 0x1261)] [(1, 0x7FFF)]) fun t => t.reg 1 == 0x8000 && t.flags == flagN) = true := by
  decide

/-- A2. -/
theorem test_addImm_extends_the_sign :
    (after (start 0x3000 [(0x3000, 0x1030)] []) fun t => t.reg 0 == 0xFFF0 && t.flags == flagN) = true := by decide

/-- A7. -/
theorem test_andReg :
    (after (start 0x3000 [(0x3000, 0x5042)] [(1, 0xF0F0), (2, 0x0FF0)]) fun t =>
      t.reg 0 == 0x00F0 && t.flags == flagP) = true := by decide

/-- A8. -/
theorem test_andImm_extends_the_sign :
    (after (start 0x3000 [(0x3000, 0x527F)] [(1, 0x8421)]) fun t => t.reg 1 == 0x8421 && t.flags == flagN) = true := by
  decide

/-- A11. -/
theorem test_andImm_clears :
    (after (start 0x3000 [(0x3000, 0x5020)] [(0, 0x1234)]) fun t => t.reg 0 == 0x0000 && t.flags == flagZ) = true := by
  decide

/-- A14. -/
theorem test_not :
    (after (start 0x3000 [(0x3000, 0x94BF)] [(2, 0x8000)]) fun t => t.reg 2 == 0x7FFF && t.flags == flagP) = true := by
  decide

/-- B7. -/
theorem test_br_wraps :
    (after ({ start 0xFFFF [(0xFFFF, 0x0E01)] [] with flags := flagP }) fun t =>
      t.pc == 0x0001 && t.flags == flagP) = true := by decide

/-- B2. -/
theorem test_br_needs_a_true_flag :
    (after (start 0x3000 [(0x3000, 0x0FFF)] []) fun t => t.pc == 0x3001) = true := by decide

/-- J1. -/
theorem test_jmp :
    (after ({ start 0x3000 [(0x3000, 0xC180)] [(6, 0x1234)] with flags := flagN }) fun t =>
      t.pc == 0x1234 && t.flags == flagN) = true := by decide

/-- J8. -/
theorem test_jsr_backwards :
    (after (start 0x3000 [(0x3000, 0x4C00)] []) fun t => t.reg 7 == 0x3001 && t.pc == 0x2C01) = true := by decide

/-- J10. -/
theorem test_jsr_wraps :
    (after (start 0xFFFF [(0xFFFF, 0x4801)] []) fun t => t.reg 7 == 0x0000 && t.pc == 0x0001) = true := by decide

/-- J12. -/
theorem test_jsrr_links_first :
    (after (start 0x3000 [(0x3000, 0x41C0)] [(7, 0x5000)]) fun t => t.reg 7 == 0x3001 && t.pc == 0x3001) = true := by
  decide

/-- J13. -/
theorem test_jsrr_base_read_first :
    (after ({ start 0x3000 [(0x3000, 0x41C0)] [(7, 0x5000)] with
        params := { inPrompt := [], jsrrBaseReadFirst := true } }) fun t =>
      t.reg 7 == 0x3001 && t.pc == 0x5000) = true := by decide

/-- L1. -/
theorem test_ld_wraps :
    (after (start 0x0001 [(0x0001, 0x21FD), (0xFFFF, 0x1234)] []) fun t =>
      t.reg 0 == 0x1234 && t.flags == flagP) = true := by decide

/-- L3. -/
theorem test_ldi :
    (after (start 0x3002 [(0x3002, 0xA608), (0x300B, 0x4000), (0x4000, 0x8001)] []) fun t =>
      t.reg 3 == 0x8001 && t.flags == flagN) = true := by decide

/-- L4. -/
theorem test_ldi_through_itself :
    (after (start 0x3000 [(0x3000, 0xA000), (0x3001, 0x3001)] []) fun t =>
      t.reg 0 == 0x3001 && t.flags == flagP) = true := by decide

/-- L7. -/
theorem test_ldr_wraps :
    (after (start 0x3000 [(0x3000, 0x6441)] [(1, 0xFFFF), (2, 0x5555)]) fun t =>
      t.reg 2 == 0x0000 && t.flags == flagZ) = true := by decide

/-- L8. -/
theorem test_ldr_reads_its_base_first :
    (after (start 0x3000 [(0x3000, 0x6260), (0x3FE0, 0x0055)] [(1, 0x4000)]) fun t =>
      t.reg 1 == 0x0055 && t.flags == flagP) = true := by decide

/-- L12. -/
theorem test_lea_sets_flags :
    (after (start 0x9000 [(0x9000, 0xE1FF)] []) fun t => t.reg 0 == 0x9000 && t.flags == flagN) = true := by decide

/-- S2. -/
theorem test_st_over_itself :
    (after ({ start 0x3000 [(0x3000, 0x33FF)] [(1, 0xABCD)] with flags := flagZ }) fun t =>
      t.memRead 0x3000 == 0xABCD && t.flags == flagZ && t.pc == 0x3001) = true := by decide

/-- S4. -/
theorem test_sti :
    (after (start 0x3003 [(0x3003, 0xB608), (0x300C, 0x4001)] [(3, 0x8001)]) fun t =>
      t.memRead 0x4001 == 0x8001 && t.memRead 0x300C == 0x4001) = true := by decide

/-- S5. -/
theorem test_sti_over_its_pointer :
    (after (start 0x3000 [(0x3000, 0xB000), (0x3001, 0x3001)] [(0, 0x9999)]) fun t =>
      t.memRead 0x3001 == 0x9999) = true := by decide

/-- S7. -/
theorem test_str_wraps :
    (after (start 0x3000 [(0x3000, 0x705F)] [(0, 0x2222), (1, 0xFFF0)]) fun t =>
      t.memRead 0x000F == 0x2222) = true := by decide

/-- T3. -/
theorem test_getc_extends_with_zeros :
    (after ({ start 0x3000 [(0x3000, 0xF020)] [] with hostReads := [.byte 0xC3] }) fun t =>
      t.reg 0 == 0x00C3 && t.flags == flagP && t.reg 7 == 0x3001 && t.out == [] && t.inConsumed == 1) = true := by
  decide

/-- T15, T17. -/
theorem test_getc_without_a_byte :
    (after ({ start 0x3000 [(0x3000, 0xF020)] [] with hostReads := [.failed] }) fun t =>
      t.runState == .halted && t.stopReason == .ioReadError) = true ∧
    (after (start 0x3000 [(0x3000, 0xF020)] [(7, 0x1111)]) fun t =>
      t.runState == .running && t.pc == 0x3000 && t.reg 7 == 0x1111 && t.progress == .getcHeld) = true := by decide

/-- T9. -/
theorem test_out_writes_the_low_byte :
    (after ({ start 0x3000 [(0x3000, 0xF021)] [(0, 0x1241)] with flags := flagN }) fun t =>
      t.out == [0x41] && t.flags == flagN && t.reg 7 == 0x3001) = true := by decide

/-- T16. -/
theorem test_out_write_failure :
    (after ({ start 0x3000 [(0x3000, 0xF021)] [] with writeBudget := some 0 }) fun t =>
      t.runState == .halted && t.stopReason == .ioWriteError && t.out == []) = true := by decide

/-- T7. -/
theorem test_puts_ends_at_a_zero_word :
    (after (start 0x3000 [(0x3000, 0xF022), (0x4000, 0x4142), (0x4001, 0x0100)] [(0, 0x4000)]) fun t =>
      t.out == [0x42, 0x00] && t.reg 0 == 0x4000 && t.pc == 0x3001) = true := by decide

/-- T8. -/
theorem test_puts_wraps :
    (after (start 0x3000 [(0x3000, 0xF022), (0xFFFF, 0x0041), (0x0000, 0x0042)] [(0, 0xFFFF)]) fun t =>
      t.out == [0x41, 0x42]) = true := by decide

/-- T4, with the prompt 3E 20. -/
theorem test_in_prompts_and_echoes :
    (after ({ start 0x3000 [(0x3000, 0xF023)] [] with
        hostReads := [.byte 0x61], params := { inPrompt := [0x3E, 0x20], jsrrBaseReadFirst := false } }) fun t =>
      t.out == [0x3E, 0x20, 0x61] && t.reg 0 == 0x0061 && t.flags == flagP && t.reg 7 == 0x3001) = true := by decide

/-- R128, R125: an IN that was held after its prompt does not write it again. -/
theorem test_in_prompts_once :
    (after ({ start 0x3000 [(0x3000, 0xF023)] [] with
        progress := .inHeld, hostReads := [.byte 0x61], params := { inPrompt := [0x3E], jsrrBaseReadFirst := false } })
      fun t => t.out == [0x61] && t.reg 0 == 0x0061 && t.pc == 0x3001) = true := by decide

/-- T11. -/
theorem test_putsp :
    (after (start 0x3000 [(0x3000, 0xF024), (0x4000, 0x6548), (0x4001, 0x006C)] [(0, 0x4000)]) fun t =>
      t.out == [0x48, 0x65, 0x6C]) = true := by decide

/-- T12. -/
theorem test_putsp_zero_low_byte :
    (after (start 0x3000 [(0x3000, 0xF024), (0x4000, 0x4100)] [(0, 0x4000)]) fun t => t.out == [0x00, 0x41]) = true := by
  decide

/-- T13. -/
theorem test_halt :
    (after (start 0x3002 [(0x3002, 0xF025)] []) fun t =>
      t.runState == .halted && t.stopReason == .haltTrap && t.reg 7 == 0x3003 && t.pc == 0x3003 && t.out == []) = true := by
  decide

/-- W10: a further step changes nothing. -/
theorem test_halted_machine_does_nothing :
    let s := { start 0x3003 [(0x3003, 0x1025)] [(7, 0x3003)] with runState := .halted, stopReason := .haltTrap }
    step s = .next s := rfl

/-- E3. -/
theorem test_undefined_vector :
    (after (start 0x3000 [(0x3000, 0xF026)] []) fun t =>
      t.runState == .halted && t.stopReason == .undefinedTrapVector 0x26) = true := by decide

/-- E1. -/
theorem test_reserved8 :
    (after (start 0x3000 [(0x3000, 0x8000)] []) fun t =>
      t.runState == .halted && t.stopReason == .reservedOpcode 0x8) = true := by decide

/-- E2. -/
theorem test_reservedD :
    (after (start 0x3000 [(0x3000, 0xDFFF)] []) fun t =>
      t.runState == .halted && t.stopReason == .reservedOpcode 0xD) = true := by decide

/-! ### The launch and memory -/

/-- R161: the image at the entry address, zero elsewhere; an image one word too long is rejected. -/
theorem test_launch :
    (match launch { Config.conventionalLaunch with entryAddress := 0xFFFE, image := [0x5020, 0xF025] } with
      | .next s => s.memRead 0xFFFE == 0x5020 && s.memRead 0xFFFF == 0xF025 && s.memRead 0x0000 == 0 && s.pc == 0xFFFE
      | .fault _ => false
      | .refused _ => false) = true ∧
    (match launch { Config.conventionalLaunch with entryAddress := 0xFFFE, image := [1, 2, 3] } with
      | .next _ => false
      | .fault r => r == .oversizedImage
      | .refused _ => false) = true := by decide

/-- A write of 0x0000 takes the entry out, so equal memories are equal lists. -/
theorem test_memory_is_canonical :
    Memory.writeAll [] [(7, 1), (3, 2), (9, 5), (7, 0)] = Memory.writeAll [] [(9, 5), (3, 2)] := by decide

/-! ### Witnesses: inputs that meet the hypotheses of each statement -/

theorem witness_DecodeInvertsEncode : (Instr.trap 0x1F).wf = true ∧ (Instr.br true true true 0x1FF).wf = true := by decide

theorem witness_EncodeKeepsReadBits :
    (decodeWord 0x105A).unreadBit 5 = false ∧ (decodeWord 0x105A).unreadBit 2 = false ∧
    (decodeWord 0xF125).unreadBit 15 = false ∧ (decodeWord 0xF125).unreadBit 0 = false := by decide

theorem witness_UnreadBitsNeverMatter :
    (∀ k, k < 16 → (decodeWord 0x1042).unreadBit k = false → (0x105A : Word).getLsbD k = (0x1042 : Word).getLsbD k) ∧
    (∀ k, k < 16 → (decodeWord 0x8000).unreadBit k = false → (0x8FFF : Word).getLsbD k = (0x8000 : Word).getLsbD k) := by
  decide

theorem witness_SextReplicatesTopBit : (1 ≤ 1 ∧ 1 ≤ 16) ∧ (1 ≤ 16 ∧ 16 ≤ 16) := by decide

theorem witness_SetccReadsTheSign :
    (0x0000 : Word) = 0x0000 ∧ ((0x8000 : Word) ≠ 0x0000 ∧ (0x8000 : Word).getLsbD 15 = true) ∧
    ((0x7FFF : Word) ≠ 0x0000 ∧ (0x7FFF : Word).getLsbD 15 = false) := by decide

theorem witness_AddWritesSum :
    decodeWord 0x1E5F = .addReg 7 1 7 ∧ decodeWord 0x1030 = .addImm 0 0 0x10 := by decide

theorem witness_AndWritesConjunction :
    decodeWord 0x5E5F = .andReg 7 1 7 ∧ decodeWord 0x507F = .andImm 0 1 0x1F := by decide

theorem witness_NotWritesComplement : decodeWord 0x9FC0 = .not 7 7 := by decide

theorem witness_ImmediateAndRegisterModesAgree :
    ((start 0x3000 [] [(2, 0x000F)]).reg 2).toInt = (0x0F#5).toInt ∧
    ((start 0x3000 [] [(2, 0xFFF0)]).reg 2).toInt = (0x10#5).toInt := by decide

theorem witness_SubtractionIsAddNotPlusOne : (1 : Reg) ≠ 2 := by decide

theorem witness_BrAddsOffsetWhenTestedFlagSet : decodeWord 0x0F00 = .br true true true 0x100 := by decide

theorem witness_BranchToSelfNeverEnds :
    let s := { start 0x3000 [(0x3000, 0x0FFF)] [] with flags := flagP }
    s.runState = .running ∧ s.memRead s.pc = 0x0FFF ∧
      (s.flags.n = true ∨ s.flags.z = true ∨ s.flags.p = true) := by decide

theorem witness_JmpGoesToBase : decodeWord 0xCFFF = .jmp 7 := by decide

theorem witness_JsrLinksAndJumps : decodeWord 0x4C00 = .jsr 0x400 := by decide

theorem witness_JsrrLinksAndJumps :
    State.reset.params.jsrrBaseReadFirst = false ∧
    ({ State.reset with params := { inPrompt := [], jsrrBaseReadFirst := true } }).params.jsrrBaseReadFirst = true ∧
    decodeWord 0x47FF = .jsrr 7 := by decide

theorem witness_LdLoadsPcRelative : decodeWord 0x2F00 = .ld 7 0x100 := by decide

theorem witness_LdiDereferencesTwice : decodeWord 0xAF00 = .ldi 7 0x100 := by decide

theorem witness_LdrLoadsBaseOffset : decodeWord 0x6FE0 = .ldr 7 7 0x20 := by decide

theorem witness_LeaGivesAddress : decodeWord 0xEF00 = .lea 7 0x100 := by decide

theorem witness_StStoresPcRelative : decodeWord 0x3F00 = .st 7 0x100 := by decide

theorem witness_StiStoresThroughPointer : decodeWord 0xBF00 = .sti 7 0x100 := by decide

theorem witness_StrStoresBaseOffset : decodeWord 0x7FE0 = .str 7 7 0x20 := by decide

/-- STR R2, R1, #0 at R1 = 0xFFFF, then the loads from 0xFFFF: LD with the pc at 0xFFFF, LDR through R1, and LDI with a
pointer at 0x4000 (S6). -/
theorem witness_StoredWordIsLoadedBack :
    let s := start 0x3001 [(0x4000, 0xFFFF)] [(1, 0xFFFF), (2, 0x1234)]
    let t := s.memWrite 0xFFFF 0x1234
    storesTo (.str 2 1 0) s = some (0xFFFF, 0x1234) ∧ exec (.str 2 1 0) s = .next t ∧
      (t.setPc 0xFFFF).pcRelative (0#9) = 0xFFFF ∧ t.baseOffset 1 0 = 0xFFFF ∧
      (t.setPc 0x4000).indirect (0#9) = 0xFFFF := ⟨by decide, rfl, by decide, by decide, by decide⟩

/-- ST R1, #0 at 0xFFFF: the next instruction is at 0x0000. -/
theorem witness_StoreIsSeenByNextFetch :
    let s := start 0xFFFF [(0xFFFF, 0x3200)] [(1, 0xF025)]
    s.runState = .running ∧ storesTo (decodeWord s.fetch) s.advance = some (s.pc + 1, 0xF025) := by decide

theorem witness_TrapWordsDispatchByVector :
    (0xF000 : Word).extractLsb' 12 4 = 0xF ∧ (0xFFFF : Word).extractLsb' 12 4 = 0xF ∧
    (0xFF20 : Word).extractLsb' 0 8 = 0x20 ∧ (0xF025 : Word).extractLsb' 0 8 = 0x25 := by decide

theorem witness_UndefinedVectorHalts :
    (0x1F : BitVec 8).toNat < 0x20 ∧ 0x25 < (0x26 : BitVec 8).toNat ∧ decodeWord 0xFF26 = .trap 0x26 := by decide

theorem witness_GetcDeliversByte :
    ({ State.reset with hostReads := [.byte 0xC3, .notYet] }).hostReads = .byte 0xC3 :: [.notYet] := rfl

theorem witness_GetcHoldsWithoutByte :
    State.reset.hostReads = [] ∧ ({ State.reset with hostReads := [.notYet, .byte 1] }).hostReads = .notYet :: [.byte 1] :=
  ⟨rfl, rfl⟩

theorem witness_UnansweredGetcStaysHeld :
    let s := start 0x3000 [(0x3000, 0xF020)] []
    s.runState = .running ∧ decodeWord s.fetch = .trapGetc ∧ s.hostReads = [] := by decide

theorem witness_GetcReadFailureHalts : ({ State.reset with hostReads := [.failed] }).hostReads = .failed :: [] := rfl

theorem witness_OutWritesLowByte :
    State.reset.accepts 1 = true ∧ ({ State.reset with writeBudget := some 1 }).accepts 1 = true ∧
    ({ State.reset with writeBudget := some 0 }).writeBudget = some 0 := by decide

/-- A string of one word at the top of memory, its zero word at 0x0000; and an empty string (T6, T8). -/
theorem witness_string_with_an_end :
    StringOf (start 0x3000 [(0xFFFF, 0x0041)] [(0, 0xFFFF)]) 0xFFFF 1 ∧
    StringOf (start 0x3000 [] [(0, 0x4000)]) 0x4000 0 := by
  refine ⟨⟨fun j hj => ?_, by decide⟩, ⟨fun j hj => by omega, by decide⟩⟩
  obtain rfl : j = 0 := by omega
  decide

theorem witness_PutsWritesString :
    let s := { start 0x3000 [(0xFFFF, 0x0041)] [(0, 0xFFFF)] with writeBudget := some 1 }
    1 < 65536 ∧ StringOf s (s.reg 0) 1 ∧ s.accepts 1 = true :=
  ⟨by decide, witness_string_with_an_end.1, by decide⟩

theorem witness_PutspWritesString :
    let s := { start 0x3000 [(0xFFFF, 0x0041)] [(0, 0xFFFF)] with writeBudget := some 1 }
    1 < 65536 ∧ StringOf s (s.reg 0) 1 ∧ s.accepts ((wordsFrom s (s.reg 0) 1).flatMap putspText).length = true :=
  ⟨by decide, witness_string_with_an_end.1, by decide⟩

/-- A memory with the same word at every address. -/
def everyWord (w : Word) : Memory := (List.range 65536).map fun a => (a, w)

theorem lookup_map_of_mem (w : Word) (as : List Nat) (a : Nat) (h : a ∈ as) :
    Memory.lookup (as.map fun b => (b, w)) a = w := by
  induction as with
  | nil => simp at h
  | cons b rest ih =>
    by_cases e : b = a
    · simp [Memory.lookup, e]
    · simpa [Memory.lookup, e] using ih (by simpa [Ne.symm e] using h)

theorem read_everyWord (w a : Word) : Memory.read (everyWord w) a = w :=
  lookup_map_of_mem w _ _ (List.mem_range.mpr a.isLt)

theorem length_flatMap_putsText (ws : List Word) : (ws.flatMap putsText).length = ws.length := by
  induction ws with
  | nil => rfl
  | cons w rest ih => simp [putsText, List.flatMap_cons, ih]

theorem witness_StringWriteFailureHalts :
    (let s := { start 0x3000 [(0xFFFF, 0x0041)] [(0, 0xFFFF)] with writeBudget := some 0 }
     (1 < 65536 ∧ StringOf s (s.reg 0) 1) ∧ s.writeBudget = some 0 ∧
       0 < ((wordsFrom s (s.reg 0) 1).flatMap putsText).length ∧
       0 < ((wordsFrom s (s.reg 0) 1).flatMap putspText).length) ∧
    (let s := { State.reset with mem := everyWord 0xF022, writeBudget := some 65535 }
     (∀ a, s.memRead a ≠ 0) ∧ s.writeBudget = some 65535 ∧
       65535 < ((wordsFrom s (s.reg 0) 65536).flatMap putsText).length) := by
  refine ⟨⟨⟨by decide, witness_string_with_an_end.1⟩, rfl, by decide, by decide⟩, fun a => ?_, rfl, ?_⟩
  · rw [State.memRead, read_everyWord]; decide
  · rw [length_flatMap_putsText, wordsFrom, List.length_map, List.length_range]; decide

theorem witness_UnendedStringIsWrittenForever (w : Word) (hw : w = 0xF022 ∨ w = 0xF024) :
    let s := { State.reset with mem := everyWord w }
    s.runState = .running ∧ s.writeBudget = none ∧ (∀ a, s.memRead a ≠ 0) ∧
      decodeWord s.fetch = (if w = 0xF022 then .trapPuts else .trapPutsp) := by
  refine ⟨rfl, rfl, fun a => ?_, ?_⟩
  · rw [State.memRead, read_everyWord]; rcases hw with rfl | rfl <;> decide
  · rw [State.fetch, State.memRead, read_everyWord]; rcases hw with rfl | rfl <;> decide

/-- A budget of exactly one pass, for each of the two routines: a word 0x0041 gives one byte in both. -/
theorem witness_StringPassWithinBudgetGoesOn :
    let s := { State.reset with mem := everyWord 0x0041, writeBudget := some 65536 }
    (∀ a, s.memRead a ≠ 0) ∧ s.accepts ((wordsFrom s (s.reg 0) 65536).flatMap putsText).length = true ∧
      s.accepts ((wordsFrom s (s.reg 0) 65536).flatMap putspText).length = true := by
  intro s
  have hr : ∀ a, s.memRead a = 0x0041 := fun a => by rw [State.memRead, read_everyWord]
  have hw : ∀ w ∈ wordsFrom s (s.reg 0) 65536, putspText w = putsText w := by
    intro w h
    obtain ⟨j, _, rfl⟩ := List.mem_map.mp h
    rw [hr]; decide
  have hl : ((wordsFrom s (s.reg 0) 65536).flatMap putsText).length = 65536 := by
    rw [length_flatMap_putsText, wordsFrom, List.length_map, List.length_range]
  refine ⟨fun a => by rw [hr]; decide, by rw [hl]; decide, ?_⟩
  rw [List.flatMap_congr hw, hl]
  decide

/-- The prompt "> " of 95_test_vectors.md. -/
def prompted : Params := { inPrompt := [0x3E, 0x20], jsrrBaseReadFirst := false }

theorem witness_InPromptsReadsAndEchoes :
    let s := { State.reset with params := prompted, hostReads := [.byte 0x61], writeBudget := some 3 }
    [0x3E, 0x20] = (if s.progress = .inHeld then [] else s.params.inPrompt) ∧ s.hostReads = .byte 0x61 :: [] ∧
      s.accepts ([0x3E, 0x20].length + 1) = true := by decide

theorem witness_InPromptsReadsAndEchoes_after_a_hold :
    let s := { State.reset with params := prompted, progress := .inHeld, hostReads := [.byte 0x61] }
    [] = (if s.progress = .inHeld then [] else s.params.inPrompt) ∧ s.hostReads = .byte 0x61 :: [] ∧
      s.accepts 1 = true := by decide

theorem witness_InHoldsAfterPrompt :
    let s := { State.reset with params := prompted, writeBudget := some 2 }
    [0x3E, 0x20] = (if s.progress = .inHeld then [] else s.params.inPrompt) ∧ s.hostReads = [] ∧
      s.accepts [0x3E, 0x20].length = true := by decide

theorem witness_InErrorsComeInOrder :
    let prompt := if State.reset.progress = .inHeld then [] else prompted.inPrompt
    (1 < prompt.length) ∧ prompt.length = 2 ∧
    (let s := { State.reset with params := prompted, writeBudget := some 1 }
     s.writeBudget = some 1 ∧ s.progress = .idle) ∧
    (let s := { State.reset with params := prompted, hostReads := [.failed], writeBudget := some 2 }
     s.hostReads = .failed :: [] ∧ s.accepts 2 = true) ∧
    (let s := { State.reset with params := prompted, hostReads := [.byte 0x61], writeBudget := some 2 }
     s.hostReads = .byte 0x61 :: [] ∧ s.writeBudget = some 2) := by decide

/-- Each routine completes somewhere without an error. -/
theorem witness_TrapRoutinesTouchOnlyListedState :
    ([0xF020, 0xF021, 0xF022, 0xF023, 0xF024, 0xF025].all fun w =>
      after ({ start 0x3000 [(0x3000, w)] [] with hostReads := [.byte 0x61] }) fun t =>
        !t.stopReason.isError && t.progress == .idle) = true := by decide

theorem witness_StepRunsDecodedInstruction :
    State.reset.runState = .running ∧ ({ State.reset with runState := .halted }).runState = .halted := ⟨rfl, rfl⟩

theorem witness_HaltedMachineStaysHalted : ({ State.reset with runState := .halted }).runState = .halted := rfl

/-- A running machine halts in each of the ways that are listed. -/
theorem witness_HaltingHasAListedCause :
    ([0xF025, 0x8000, 0xD123, 0xF026, 0xF020, 0xF021, 0xF022, 0xF024, 0xF023].all fun w =>
      after ({ start 0xFFFF [(0xFFFF, w)] [(0, 0xFFFF)] with hostReads := [.failed], writeBudget := some 0 }) fun t =>
        t.runState == .halted) = true := by decide

theorem witness_OnlyListedInstructionsWriteFlags :
    (Instr.addImm 0 0 1).wf = true ∧
    exec (.addImm 0 0 1) State.reset = .next (State.reset.setResult 0 0x0001) ∧
    (State.reset.setResult 0 0x0001).stopReason.isError = false ∧ (Instr.addImm 0 0 1).resultReg = some 0 ∧
    (State.reset.setResult 0 0x0001).pc = State.reset.pc ∧
    exec (.jmp 1) State.reset = .next (State.reset.setPc 0x0000) ∧ (Instr.jmp 1).resultReg = none ∧
    exec .trapGetc State.reset = .next { State.reset with pc := 0x2FFF, progress := .getcHeld } ∧
    (0x2FFF : Word) ≠ State.reset.pc :=
  ⟨rfl, rfl, rfl, rfl, rfl, rfl, rfl, rfl, by decide⟩

theorem witness_OnlyBrReadsFlags :
    (Instr.jmp 1).isBr = false ∧ exec (.jmp 1) State.reset = .next (State.reset.setPc 0x0000) := ⟨rfl, rfl⟩

theorem witness_OnlyStoresWriteMemory :
    exec (.str 2 1 0) State.reset = .next (State.reset.memWrite 0x0000 0x0000) ∧
    (State.reset.memWrite 0x0000 0x0000).stopReason.isError = false ∧
    storesTo (.str 2 1 0) State.reset = some (0x0000, 0x0000) ∧
    exec (.jmp 1) State.reset = .next (State.reset.setPc 0x0000) ∧ storesTo (.jmp 1) State.reset = none :=
  ⟨rfl, rfl, by decide, rfl, rfl⟩

theorem witness_OnlyNamedRegistersChange :
    exec (.addImm 0 0 1) State.reset = .next (State.reset.setResult 0 0x0001) ∧
    (State.reset.setResult 0 0x0001).stopReason.isError = false ∧ (Instr.addImm 0 0 1).mayWrite 1 = false :=
  ⟨rfl, rfl, rfl⟩

theorem witness_PcMovesOnlyByControlTransfer :
    exec (.addImm 0 0 1) State.reset = .next (State.reset.setResult 0 0x0001) ∧
    (State.reset.setResult 0 0x0001).stopReason.isError = false ∧ (Instr.addImm 0 0 1).transfersControl = false ∧
    exec .trapGetc State.reset = .next { State.reset with pc := 0x2FFF, progress := .getcHeld } ∧
    Instr.trapGetc.transfersControl = false ∧ Instr.trapGetc.wf = true :=
  ⟨rfl, rfl, rfl, rfl, rfl, rfl⟩

/-- One step of OUT at 0x3000 writes a byte. -/
theorem witness_ConsoleHistoryOnlyGrows :
    (match core.run 1 (start 0x3000 [(0x3000, 0xF021)] [(0, 0x0041)]) with
      | .next t => t.out == [0x41]
      | .fault _ => false
      | .refused _ => false) = true := by decide

theorem witness_LaunchPlacesImage :
    (let l := { Config.conventionalLaunch with entryAddress := 0xFFFF, image := [0xF025] }
     l.image.length ≤ 65536 - l.entryAddress.toNat ∧ l.image[0]? = some 0xF025) ∧
    (let l := { Config.conventionalLaunch with entryAddress := 0xFFFF, image := [0xF025, 0xF025] }
     65536 - l.entryAddress.toNat < l.image.length) := by decide

theorem witness_LaunchIsSound : launch Config.conventionalLaunch = .next State.reset := rfl

/-- A machine held in GETC is sound, and a step holds it again. -/
theorem witness_StepKeepsInvariant :
    let s := { start 0x3000 [(0x3000, 0xF020)] [] with progress := .getcHeld, flags := flagN }
    s.Inv ∧ step s = .next s := by
  refine ⟨⟨by decide, by decide, fun _ => rfl, fun i hi => ?_⟩, rfl⟩
  cases hi
  decide

end Sys2Proof.Tests
end

section
/-! SUPPORT. What every decoded instruction is: well-formed, with the opcode of the word's top four bits
(30_encoding.md R54, R55). -/

namespace Sys2Proof

theorem decodeTrap_wf (v : BitVec 8) : (decodeTrap v).wf = true := by
  rcases Machine.dispatch_cases v with
    ⟨rfl, -⟩ | ⟨rfl, -⟩ | ⟨rfl, -⟩ | ⟨rfl, -⟩ | ⟨rfl, -⟩ | ⟨rfl, -⟩ | ⟨hv, -⟩
  case inr.inr.inr.inr.inr.inr => unfold decodeTrap; split_ifs <;> simp [Instr.wf, hv]
  all_goals rfl

theorem decodeWord_wf (w : Word) : (decodeWord w).wf = true := by
  unfold decodeWord
  split
  case h_16 => exact decodeTrap_wf _
  all_goals try split_ifs
  all_goals rfl

theorem decodeTrap_opcode (v : BitVec 8) : (decodeTrap v).opcode = 0xF#4 := by
  unfold decodeTrap
  split_ifs <;> rfl

/-- The top four bits of a word, from its bits one by one. -/
theorem topBits_eq {w : Word} {op : BitVec 4} (h15 : w.getLsbD 15 = op.getLsbD 3) (h14 : w.getLsbD 14 = op.getLsbD 2)
    (h13 : w.getLsbD 13 = op.getLsbD 1) (h12 : w.getLsbD 12 = op.getLsbD 0) : op = w.extractLsb' 12 4 := by
  refine (extract_eq_of_bits fun k hk => ?_).symm
  interval_cases k <;> assumption

theorem decodeWord_opcode (w : Word) : (decodeWord w).opcode = w.extractLsb' 12 4 := by
  unfold decodeWord
  split
  case h_16 => rw [decodeTrap_opcode]; apply topBits_eq <;> assumption
  all_goals try split_ifs
  all_goals simp only [Instr.opcode]; apply topBits_eq <;> assumption

end Sys2Proof
end

section
/-! SUPPORT. How an instruction leaves the run state, the console and the progress mark: the half of an instruction's
effect that `Effect` does not speak of. -/

namespace Sys2Proof.Machine

/-- From `s` to `t` the output only grows at its end, and the answers used are the first ones, whose bytes are
counted (R21, R150). -/
structure ConsoleGrows (s t : State) : Prop where
  out : s.out <+: t.out
  answers : ∃ used, s.hostReads = used ++ t.hostReads ∧
    t.inConsumed = s.inConsumed + (used.filter ReadAnswer.isByte).length

namespace ConsoleGrows

variable {s t u : State}

/-- No read was answered. -/
theorem of_no_answer (ho : s.out <+: t.out) (hr : t.hostReads = s.hostReads) (hc : t.inConsumed = s.inConsumed) :
    ConsoleGrows s t :=
  ⟨ho, [], by simp [hr], by simp [hc]⟩

/-- One read was answered. -/
theorem of_answer {a : ReadAnswer} {rest : List ReadAnswer} (h : s.hostReads = a :: rest) (ho : s.out <+: t.out)
    (hr : t.hostReads = rest) (hc : t.inConsumed = s.inConsumed + ([a].filter ReadAnswer.isByte).length) :
    ConsoleGrows s t :=
  ⟨ho, [a], by simp [h, hr], hc⟩

/-- A read is held: no answer is left, or the answer is that there is no byte yet. -/
theorem of_held {rest : List ReadAnswer} (htail : rest = s.hostReads.tail)
    (h : s.hostReads = [] ∨ s.hostReads = .notYet :: rest) (ho : s.out <+: t.out) (hr : t.hostReads = rest)
    (hc : t.inConsumed = s.inConsumed) : ConsoleGrows s t := by
  rcases h with h | h
  · exact of_no_answer ho (by simp [hr, htail, h]) hc
  · exact of_answer h ho hr hc

theorem of_sameConsole (h : SameConsole s t) : ConsoleGrows s t :=
  of_no_answer (by simp [h.out]) h.hostReads h.inConsumed

theorem refl (s : State) : ConsoleGrows s s := of_sameConsole (.refl s)

theorem trans (h : ConsoleGrows s t) (h' : ConsoleGrows t u) : ConsoleGrows s u := by
  obtain ⟨ho, used, hr, hc⟩ := h
  obtain ⟨ho', used', hr', hc'⟩ := h'
  exact ⟨ho.trans ho', used ++ used', by simp [hr, hr'], by simp [hc, hc', Nat.add_assoc]⟩

end ConsoleGrows

/-- Which stop reason which instruction can give (R127, R142 to R144). -/
inductive StopCause : Instr → StopReason → Prop
  | halt : StopCause .trapHalt .haltTrap
  | reserved {i : Instr} : i = .reserved8 ∨ i = .reservedD → StopCause i (.reservedOpcode i.opcode)
  | vector (v : BitVec 8) : StopCause (.trap v) (.undefinedTrapVector v)
  | read {i : Instr} : i = .trapGetc ∨ i = .trapIn → StopCause i .ioReadError
  | write {i : Instr} : i = .trapOut ∨ i = .trapPuts ∨ i = .trapPutsp ∨ i = .trapIn → StopCause i .ioWriteError

theorem StopCause.ne_none {i : Instr} {e : StopReason} (h : StopCause i e) : e ≠ .none := by
  cases h <;> nofun

/-- How an instruction ends, from the state `s` after the fetch to the state `t`. -/
inductive Course (i : Instr) (s t : State) : Prop
  /-- An instruction other than TRAP that raises no error touches neither the console nor the run state nor the mark. -/
  | plain : i.opcode ≠ 0xF → SameConsole s t → SameControl s t → Course i s t
  /-- A TRAP returns. -/
  | returned : ConsoleGrows s t → t.runState = s.runState → t.stopReason = s.stopReason → t.progress = .idle →
      Course i s t
  /-- A TRAP has not completed: the mark names it, and the pc is its address again. -/
  | unfinished : ConsoleGrows s t → t.runState = s.runState → t.stopReason = s.stopReason →
      t.progress.instr = some i → t.pc = s.pc - 1 → t.mem = s.mem → Course i s t
  /-- The machine halts, for a reason the instruction can give. -/
  | halted : ConsoleGrows s t → t.runState = .halted → StopCause i t.stopReason → t.progress = .idle → Course i s t

section

variable {i : Instr} {s t : State}

theorem Course.grows (h : Course i s t) : ConsoleGrows s t := by
  cases h with
  | plain _ hc _ => exact .of_sameConsole hc
  | returned hg | unfinished hg | halted hg => exact hg

theorem getc_course (h : trapCall getcRoutine s = .next t) : Course .trapGetc s t := by
  rcases getcRoutine_cases s.link with ⟨_, htail, hr, e⟩ | ⟨_, hr, e⟩ | ⟨_, _, hr, e⟩
  · rw [trapCall_unfinished e] at h; cases h
    exact .unfinished (.of_held htail hr List.prefix_rfl rfl rfl) rfl rfl rfl rfl rfl
  · rw [trapCall_error e] at h; cases h
    exact .halted (.of_answer hr List.prefix_rfl rfl rfl) rfl (.read (.inl rfl)) rfl
  · rw [trapCall_done e] at h; cases h
    exact .returned (.of_answer hr List.prefix_rfl rfl rfl) rfl rfl rfl

theorem out_course (h : trapCall outRoutine s = .next t) : Course .trapOut s t := by
  rcases outRoutine_cases s.link with ⟨_, e⟩ | ⟨_, e⟩
  · rw [trapCall_done e] at h; cases h
    exact .returned (.of_no_answer (List.prefix_append _ _) rfl rfl) rfl rfl rfl
  · rw [trapCall_error e] at h; cases h
    exact .halted (.of_no_answer List.prefix_rfl rfl rfl) rfl (.write (.inl rfl)) rfl

theorem string_course {bytes : Word → List Byte} {p : Progress} (hp : p.instr = some i)
    (hw : StopCause i .ioWriteError) (h : trapCall (writeString bytes p) s = .next t) : Course i s t := by
  rcases writeString_cases bytes p s.link with ⟨_, e⟩ | ⟨_, _, _, e⟩
  · cases hz : s.link.stringAtR0.2 <;> simp only [hz, if_true, Bool.false_eq_true, if_false] at e
    · rw [trapCall_unfinished e] at h; cases h
      exact .unfinished (.of_no_answer (List.prefix_append _ _) rfl rfl) rfl rfl hp rfl rfl
    · rw [trapCall_done e] at h; cases h
      exact .returned (.of_no_answer (List.prefix_append _ _) rfl rfl) rfl rfl rfl
  · rw [trapCall_error e] at h; cases h
    exact .halted (.of_no_answer (List.prefix_append _ _) rfl rfl) rfl hw rfl

theorem in_course (h : trapCall inRoutine s = .next t) : Course .trapIn s t := by
  have hw : StopCause .trapIn .ioWriteError := .write (.inr (.inr (.inr rfl)))
  rcases inRoutine_cases s.link with
    ⟨_, _, _, e⟩ | ⟨_, ⟨_, htail, hr, e⟩ | ⟨_, hr, e⟩ | ⟨_, _, hr, ⟨_, e⟩ | ⟨_, e⟩⟩⟩
  · rw [trapCall_error e] at h; cases h
    exact .halted (.of_no_answer (List.prefix_append _ _) rfl rfl) rfl hw rfl
  · rw [trapCall_unfinished e] at h; cases h
    exact .unfinished (.of_held htail hr (List.prefix_append _ _) rfl rfl) rfl rfl rfl rfl rfl
  · rw [trapCall_error e] at h; cases h
    exact .halted (.of_answer hr (List.prefix_append _ _) rfl rfl) rfl (.read (.inr rfl)) rfl
  · rw [trapCall_error e] at h; cases h
    exact .halted (.of_answer hr (List.prefix_append _ _) rfl rfl) rfl hw rfl
  · rw [trapCall_done e] at h; cases h
    exact .returned (.of_answer hr ((List.prefix_append _ _).trans (List.prefix_append _ _)) rfl rfl) rfl rfl rfl

theorem undefined_course {v : BitVec 8} (hv : definedVector v = false) (h : execTrap v s = .next t) :
    Course (.trap v) s t := by
  have e : dispatch v s.link = .error (.undefinedTrapVector v) s.link := by
    rcases dispatch_cases v with
      ⟨rfl, -⟩ | ⟨rfl, -⟩ | ⟨rfl, -⟩ | ⟨rfl, -⟩ | ⟨rfl, -⟩ | ⟨rfl, -⟩ | ⟨-, e⟩
    case inr.inr.inr.inr.inr.inr => rw [e]
    all_goals exact absurd hv (by decide)
  rw [execTrap, trapCall_error e] at h; cases h
  exact .halted (.of_no_answer List.prefix_rfl rfl rfl) rfl (.vector v) rfl

/-- How every instruction a word can decode to ends. -/
theorem exec_course (hw : i.wf = true) (h : exec i s = .next t) : Course i s t := by
  cases i with
  | trapGetc => exact getc_course h
  | trapOut => exact out_course h
  | trapPuts => exact string_course rfl (.write (.inr (.inl rfl))) h
  | trapIn => exact in_course h
  | trapPutsp => exact string_course rfl (.write (.inr (.inr (.inl rfl)))) h
  | trapHalt => cases h; exact .halted (.of_no_answer List.prefix_rfl rfl rfl) rfl .halt rfl
  | trap v => exact undefined_course (by simpa [Instr.wf] using hw) h
  | reserved8 => cases h; exact .halted (.of_no_answer List.prefix_rfl rfl rfl) rfl (.reserved (.inl rfl)) rfl
  | reservedD => cases h; exact .halted (.of_no_answer List.prefix_rfl rfl rfl) rfl (.reserved (.inr rfl)) rfl
  | br | jsrr =>
    cases h
    split_ifs <;> exact .plain (by simp [Instr.opcode]) ⟨rfl, rfl, rfl, rfl⟩ ⟨rfl, rfl, rfl, rfl, rfl⟩
  | _ => cases h; exact .plain (by simp [Instr.opcode]) ⟨rfl, rfl, rfl, rfl⟩ ⟨rfl, rfl, rfl, rfl, rfl⟩

end

/-! ### One step -/

theorem step_of_halted {s : State} (h : s.runState = .halted) : step s = .next s := by
  simp [step, State.invoke, h]

theorem step_of_running {s : State} (h : s.runState = .running) : step s = exec (decodeWord s.fetch) s.advance := by
  simp [step, State.invoke, State.cycle, h]

/-- A halted machine stays as it is, or a running one executes the instruction at the pc. -/
theorem step_cases {s t : State} (h : step s = .next t) :
    (s.runState = .halted ∧ t = s) ∨ (s.runState = .running ∧ exec (decodeWord s.fetch) s.advance = .next t) := by
  cases hs : s.runState with
  | halted => rw [step_of_halted hs] at h; cases h; exact .inl ⟨rfl, rfl⟩
  | running => exact .inr ⟨rfl, step_of_running hs ▸ h⟩

end Sys2Proof.Machine
end

section
/-! SUPPORT. The flags before an instruction other than BR (R16): each console operation and each routine does the same
whatever they are. -/

namespace Sys2Proof.Machine

/-- The state with other flags. -/
def State.withFlags (s : State) (f : Flags) : State := { s with flags := f }

def WriteResult.withFlags (f : Flags) : WriteResult → WriteResult
  | .accepted s => .accepted (s.withFlags f)
  | .failed s => .failed (s.withFlags f)

def ReadResult.withFlags (f : Flags) : ReadResult → ReadResult
  | .byte b s => .byte b (s.withFlags f)
  | .failed s => .failed (s.withFlags f)
  | .notYet s => .notYet (s.withFlags f)

def RoutineResult.withFlags (f : Flags) : RoutineResult → RoutineResult
  | .done s => .done (s.withFlags f)
  | .error e s => .error e (s.withFlags f)
  | .unfinished p s => .unfinished p (s.withFlags f)

variable (s : State) (f : Flags)

theorem State.consoleWrite_withFlags (b : Byte) :
    (s.withFlags f).consoleWrite b = (s.consoleWrite b).withFlags f := by
  rw [State.consoleWrite_eq, State.consoleWrite_eq, show (s.withFlags f).accepts 1 = s.accepts 1 from rfl]
  cases s.accepts 1 <;> rfl

theorem State.consoleWriteAll_withFlags (bs : List Byte) :
    (s.withFlags f).consoleWriteAll bs = (s.consoleWriteAll bs).withFlags f := by
  induction bs generalizing s with
  | nil => rfl
  | cons b rest ih =>
    rw [State.consoleWriteAll, State.consoleWriteAll, State.consoleWrite_withFlags]
    cases s.consoleWrite b with
    | accepted s' => exact ih s'
    | failed s' => rfl

theorem State.consoleRead_withFlags : (s.withFlags f).consoleRead = s.consoleRead.withFlags f := by
  unfold State.consoleRead
  rw [show (s.withFlags f).hostReads = s.hostReads from rfl]
  rcases s.hostReads with _ | ⟨_ | _ | _, _⟩ <;> rfl

/-- A routine does not read the flags: other flags before it are overwritten or stay as they are. -/
def FlagBlind (r : State → RoutineResult) : Prop :=
  ∀ (s : State) (f : Flags), r (s.withFlags f) = r s ∨ r (s.withFlags f) = (r s).withFlags f

theorem getcRoutine_flagBlind : FlagBlind getcRoutine := fun s f => by
  unfold getcRoutine
  rw [State.consoleRead_withFlags]
  cases s.consoleRead with
  | byte => exact .inl rfl
  | failed | notYet => exact .inr rfl

theorem outRoutine_flagBlind : FlagBlind outRoutine := fun s f => by
  unfold outRoutine
  rw [State.consoleWrite_withFlags, show (s.withFlags f).reg trapReg = s.reg trapReg from rfl]
  right
  cases s.consoleWrite (lowByte (s.reg trapReg)) <;> rfl

theorem writeString_flagBlind (bytes : Word → List Byte) (p : Progress) :
    FlagBlind (writeString bytes p) := fun s f => by
  unfold writeString
  rw [State.consoleWriteAll_withFlags, show (s.withFlags f).stringAtR0 = s.stringAtR0 from rfl]
  right
  cases s.consoleWriteAll (s.stringAtR0.1.flatMap bytes) with
  | accepted => cases s.stringAtR0.2 <;> rfl
  | failed => rfl

theorem inRoutine_flagBlind : FlagBlind inRoutine := fun s f => by
  unfold inRoutine
  rw [State.consoleWriteAll_withFlags, show (s.withFlags f).promptLeft = s.promptLeft from rfl]
  cases s.consoleWriteAll s.promptLeft with
  | failed => exact .inr rfl
  | accepted s1 =>
    simp only [WriteResult.withFlags, State.consoleRead_withFlags]
    cases s1.consoleRead with
    | failed | notYet => exact .inr rfl
    | byte b s2 =>
      simp only [ReadResult.withFlags, State.consoleWrite_withFlags]
      cases s2.consoleWrite b with
      | failed => exact .inr rfl
      | accepted => exact .inl rfl

theorem haltRoutine_flagBlind : FlagBlind haltRoutine := fun _ _ => .inr rfl

theorem dispatch_flagBlind (v : BitVec 8) : FlagBlind (dispatch v) := by
  rcases dispatch_cases v with ⟨-, e⟩ | ⟨-, e⟩ | ⟨-, e⟩ | ⟨-, e⟩ | ⟨-, e⟩ | ⟨-, e⟩ | ⟨-, e⟩ <;> rw [e]
  · exact getcRoutine_flagBlind
  · exact outRoutine_flagBlind
  · exact writeString_flagBlind _ _
  · exact inRoutine_flagBlind
  · exact writeString_flagBlind _ _
  · exact haltRoutine_flagBlind
  · exact fun _ _ => .inr rfl

variable {s} {t : State} {f}

/-- Around a routine that does not read the flags, neither does TRAP. -/
theorem FlagBlind.trapCall_withFlags {r : State → RoutineResult} (hr : FlagBlind r) (h : trapCall r s = .next t) :
    trapCall r (s.withFlags f) = .next t ∨ trapCall r (s.withFlags f) = .next (t.withFlags f) := by
  rcases trapCall_cases r s with ⟨u, e, eq⟩ | ⟨_, u, e, eq⟩ | ⟨_, u, e, eq⟩
  all_goals
    obtain rfl := Host.Outcome.next.inj (h.symm.trans eq)
    rcases hr s.link f with e' | e' <;> rw [e] at e'
  · exact .inl (trapCall_done e')
  · exact .inr (trapCall_done (s' := u.withFlags f) e')
  · exact .inl (trapCall_error e')
  · exact .inl (trapCall_error (s' := u.withFlags f) e')
  · exact .inl (trapCall_unfinished e')
  · exact .inr (trapCall_unfinished (s' := u.withFlags f) e')

theorem exec_withFlags {i : Instr} (hi : i.isBr = false) (h : exec i s = .next t) :
    exec i (s.withFlags f) = .next t ∨ exec i (s.withFlags f) = .next (t.withFlags f) := by
  cases i with
  | br => cases hi
  | trap v => exact (dispatch_flagBlind v).trapCall_withFlags h
  | trapGetc => exact getcRoutine_flagBlind.trapCall_withFlags h
  | trapOut => exact outRoutine_flagBlind.trapCall_withFlags h
  | trapPuts | trapPutsp => exact (writeString_flagBlind _ _).trapCall_withFlags h
  | trapIn => exact inRoutine_flagBlind.trapCall_withFlags h
  | trapHalt => exact haltRoutine_flagBlind.trapCall_withFlags h
  | addReg | addImm | andReg | andImm | not | ld | ldi | ldr | lea | reserved8 | reservedD => cases h; exact .inl rfl
  | st | sti | str | jmp | jsr => cases h; exact .inr rfl
  | jsrr base =>
    cases h
    right
    unfold exec execJsrr
    rw [show (s.withFlags f).params = s.params from rfl]
    cases s.params.jsrrBaseReadFirst <;> rfl

end Sys2Proof.Machine
end

section
/-! PROOFS. The state's statements (10_state.md). -/

namespace Sys2Proof.Machine

/-! ### The invariant -/

theorem Progress.instr_opcode {p : Progress} {i : Instr} (h : p.instr = some i) : i.opcode = 0xF := by
  cases p <;> cases h <;> rfl

section

variable {i : Instr} {s t : State}

/-- Only a store changes memory, and by a write; the free memory of an error is canonical too. -/
theorem Effect.mem_wf (h : Effect i s t) (hs : s.mem.wf) : t.mem.wf := by
  cases h with
  | result | jump | call => exact hs
  | store a v => exact Memory.write_wf hs a v
  | error e u => exact u.raise_mem_wf e
  | delivered b u _ _ _ _ _ _ hm => exact hm ▸ hs
  | completed u _ _ _ _ _ hm => exact hm ▸ hs
  | unfinished p u _ _ _ _ hm => exact hm ▸ hs

/-- Without an error the flags are those of a result, or as before. -/
theorem Effect.flags_exclusive (h : Effect i s t) (hs : s.flags.exclusive = true) (he : t.stopReason.isError = false) :
    t.flags.exclusive = true := by
  cases h with
  | result dr v => exact Flags.ofResult_exclusive v
  | delivered b u => exact Flags.ofResult_exclusive (zext b)
  | store | jump | call => exact hs
  | error e u herr => exact absurd he (by simp [herr])
  | completed u _ _ _ _ _ _ hf => exact hf ▸ hs
  | unfinished p u _ _ _ _ _ hf => exact hf ▸ hs

theorem Course.stopped (h : Course i s t) (hs : s.stopReason = .none ↔ s.runState = .running) :
    t.stopReason = .none ↔ t.runState = .running := by
  cases h with
  | plain _ _ hc => rwa [hc.stopReason, hc.runState]
  | returned _ hr he | unfinished _ hr he => rwa [he, hr]
  | halted _ hr hc => simp [hr, hc.ne_none]

end

/-- An instruction in progress after a running step is the one at the pc: the step before left it there. -/
theorem Course.progress {s t : State} (h : Course (decodeWord s.fetch) s.advance t) (hs : s.Inv)
    (hrun : s.runState = .running) (i : Instr) (hi : t.progress.instr = some i) :
    t.runState = .running ∧ decodeWord t.fetch = i := by
  cases h with
  | plain hop _ hc =>
    rw [hc.progress] at hi
    have hat : decodeWord s.fetch = i := (hs.progress i hi).2
    exact absurd (Progress.instr_opcode hi) (hat ▸ hop)
  | returned _ _ _ hp | halted _ _ _ hp => rw [hp] at hi; cases hi
  | unfinished _ hr _ hp hpc hm =>
    have hfetch : t.fetch = s.fetch := by
      simp [State.fetch, State.memRead, hpc, hm]
    exact ⟨hr.trans hrun, by rw [hfetch]; exact Option.some.inj (hp.symm.trans hi)⟩

/-- Settles O58: a halted step changes nothing, and a running one keeps each clause by the effect and the course of its
instruction. -/
theorem stepKeepsInvariant : Obligations.StepKeepsInvariant := by
  intro s t hs h
  rcases step_cases h with ⟨-, rfl⟩ | ⟨hrun, h⟩
  · exact hs
  · have heff := exec_effect h
    have hcourse := exec_course (decodeWord_wf _) h
    have hok : s.stopReason.isError = false := by rw [hs.stopped.mpr hrun]; rfl
    exact ⟨heff.mem_wf hs.memory, hcourse.stopped hs.stopped, heff.flags_exclusive (hs.flags hok),
      hcourse.progress hs hrun⟩

/-- Settles O56: reset is the launch without an image, field by field. -/
theorem resetIsSound : Obligations.ResetIsSound :=
  ⟨⟨Memory.nil_wf, by decide, fun _ => rfl, fun _ hi => nomatch hi⟩, rfl⟩

theorem Flags.ofReset_exclusive (r : ResetFlags) : (Flags.ofReset r).exclusive = true := by
  cases r <;> rfl

/-- Settles O57: loading an image keeps memory canonical. -/
theorem launchIsSound : Obligations.LaunchIsSound := by
  intro l s h
  unfold launch at h
  split_ifs at h
  cases h
  exact ⟨⟨Memory.loadImage_wf Memory.nil_wf _ _, by simp [State.reset], fun _ => Flags.ofReset_exclusive _,
    fun _ hi => nomatch hi⟩, rfl⟩

/-! ### Halting -/

/-- Settles O48: a running machine halts by the halting course of the instruction at the pc only. -/
theorem haltingHasAListedCause : Obligations.HaltingHasAListedCause := by
  refine ⟨rfl, fun s t h => ⟨fun hs => ?_, fun hs ht => ?_⟩⟩
  · rw [step_of_halted hs] at h; cases h; rfl
  · rw [step_of_running hs] at h
    have goesOn (hr : t.runState = s.advance.runState) : False := by simp [ht, hs] at hr
    cases exec_course (decodeWord_wf _) h with
    | plain _ _ hc => exact (goesOn hc.runState).elim
    | returned _ hr => exact (goesOn hr).elim
    | unfinished _ hr => exact (goesOn hr).elim
    | halted _ _ hcause =>
      have hop := decodeWord_opcode s.fetch
      generalize hi : decodeWord s.fetch = i at hcause hop
      generalize t.stopReason = e at hcause
      cases hcause with
      | halt => exact .inl ⟨rfl, rfl⟩
      | reserved hres => exact .inr (.inl ⟨by rw [hop], hres⟩)
      | vector v =>
        have hv : v = s.fetch.extractLsb' 0 8 := decodeWord_fields_of_eq hi
        exact .inr (.inr (.inl ⟨by rw [hv], by rw [← hv]⟩))
      | read hread => exact .inr (.inr (.inr (.inl ⟨rfl, hread⟩)))
      | write hwrite => exact .inr (.inr (.inr (.inr ⟨rfl, hwrite⟩)))

/-! ### Flags -/

/-- Settles O7: `setcc` asks its two questions in R14's order. -/
theorem setccReadsTheSign : Obligations.SetccReadsTheSign := fun _ v =>
  ⟨rfl, Flags.ofResult_reads v, fun hz => if_pos hz, fun hz hs => (if_neg hz).trans (if_pos hs),
    fun hz hs => (if_neg hz).trans (if_neg (Bool.eq_false_iff.mp hs))⟩

/-- One less than an address is another address. -/
theorem sub_one_ne (a : Word) : a - 1 ≠ a := by bv_omega

/-- Settles O49, by the effects: a completed instruction leaves the pc after the fetch, an unfinished TRAP does not. -/
theorem onlyListedInstructionsWriteFlags : Obligations.OnlyListedInstructionsWriteFlags := by
  intro i s t hwf h he
  cases exec_effect h with
  | result dr v hres =>
    refine ⟨fun r hr _ => ?_, fun _ _ hpc => absurd rfl hpc, fun hnone => ?_⟩
    · obtain rfl : dr = r := Option.some.inj (hres.symm.trans hr)
      rw [(s.setResult_writes dr v).result]
      exact (s.setResult_writes dr v).flags
    · rw [hres] at hnone; cases hnone
  | delivered b u hres _ _ _ _ hpc =>
    have hres : i.resultReg = some 0 := hres.resolve_right (by simp [hwf])
    refine ⟨fun r hr _ => ?_, fun _ _ hne => absurd hpc hne, fun hnone => ?_⟩
    · obtain rfl : 0 = r := Option.some.inj (hres.symm.trans hr)
      have hw := u.setResult_writes trapReg (zext b)
      exact hw.result ▸ hw.flags
    · rw [hres] at hnone; cases hnone
  | unfinished p u _ _ _ _ _ hf =>
    exact ⟨fun _ _ hpc => absurd hpc (sub_one_ne s.pc), fun _ _ _ => hf, fun _ => hf⟩
  | error e u herr => exact absurd he (by simp [herr])
  | store a v _ hnone => exact ⟨by simp [hnone], by simp [hnone], fun _ => rfl⟩
  | jump v _ hnone => exact ⟨by simp [hnone], by simp [hnone], fun _ => rfl⟩
  | call v _ hnone => exact ⟨by simp [hnone], by simp [hnone], fun _ => rfl⟩
  | completed u hnone _ _ _ _ _ hf => exact ⟨by simp [hnone], by simp [hnone], fun _ => hf⟩

/-- Settles O50. BRn + 1 right after reset is not taken with no flag set, and taken with N set. -/
theorem onlyBrReadsFlags : Obligations.OnlyBrReadsFlags :=
  ⟨⟨true, false, false, 1, State.reset, State.reset, (State.reset.withFlags ⟨true, false, false⟩).setPc 0x3001,
      ⟨true, false, false⟩,
      rfl, rfl, by decide⟩,
    fun _ _ _ _ hi h => exec_withFlags hi h⟩

/-! ### Registers and the pc -/

theorem reg_of_regs_eq {s t : State} (h : t.regs = s.regs) (r : Reg) : t.reg r = s.reg r := by
  rw [State.reg, h, State.reg]

/-- Settles O52, by the effects: a register that may not be written is none that an effect writes. -/
theorem onlyNamedRegistersChange : Obligations.OnlyNamedRegistersChange := by
  intro i s t r h he hr
  have ne_of_mayWrite {q : Reg} (hq : i.mayWrite q = true) : r ≠ q := fun e => by simp [← e, hr] at hq
  have link_keeps (h7 : i.mayWrite 7 = true) : s.link.reg r = s.reg r :=
    s.reg_setReg_ne linkReg r s.pc (ne_of_mayWrite h7)
  cases exec_effect h with
  | result dr v _ hdr => exact s.reg_setReg_ne dr r v (ne_of_mayWrite hdr)
  | store | jump | unfinished => rfl
  | call v _ _ _ h7 => exact link_keeps h7
  | error e u herr => exact absurd he (by simp [herr])
  | delivered b u _ h0 h7 _ hregs =>
    calc (u.deliver b).trapReturn.reg r
        = u.reg r := u.reg_setReg_ne trapReg r (zext b) (ne_of_mayWrite h0)
      _ = s.link.reg r := reg_of_regs_eq hregs r
      _ = s.reg r := link_keeps h7
  | completed u _ h7 _ hregs => exact (reg_of_regs_eq hregs r).trans (link_keeps h7)

/-- Settles O53, by the effects: only a jump, a call, an error and an unfinished TRAP write the pc. -/
theorem pcMovesOnlyByControlTransfer : Obligations.PcMovesOnlyByControlTransfer := by
  intro i s t h he hi
  cases exec_effect h with
  | result | store => exact .inl rfl
  | jump v hc => simp [hi] at hc
  | call v hc => simp [hi] at hc
  | error e u herr => exact absurd he (by simp [herr])
  | delivered b u _ _ _ _ _ hpc => exact .inl hpc
  | completed u _ _ _ _ hpc => exact .inl hpc
  | unfinished p u hp hop hinstr => exact .inr ⟨rfl, hop, hp, hinstr⟩

/-! ### The console -/

theorem step_consoleGrows {s t : State} (h : step s = .next t) : ConsoleGrows s t := by
  rcases step_cases h with ⟨-, rfl⟩ | ⟨-, h⟩
  · exact .refl _
  · have hg := (exec_course (decodeWord_wf _) h).grows
    exact ⟨hg.out, hg.answers⟩

theorem run_succ_next {s t : State} {n : Nat} (h : core.run (n + 1) s = .next t) :
    ∃ u, step s = .next u ∧ core.run n u = .next t := by
  cases hs : step s with
  | next u => exact ⟨u, rfl, run_succ n hs ▸ h⟩
  | fault r => simp [Host.Core.run, show core.step s = .fault r from hs] at h
  | refused r => simp [Host.Core.run, show core.step s = .refused r from hs] at h

theorem run_consoleGrows {n : Nat} {s t : State} (h : core.run n s = .next t) : ConsoleGrows s t := by
  induction n generalizing s with
  | zero => cases h; exact .refl _
  | succ n ih =>
    obtain ⟨u, hstep, hrun⟩ := run_succ_next h
    exact (step_consoleGrows hstep).trans (ih hrun)

/-- Settles O54, by induction on the number of steps. -/
theorem consoleHistoryOnlyGrows : Obligations.ConsoleHistoryOnlyGrows := by
  intro n s t h
  obtain ⟨ho, ha⟩ := run_consoleGrows h
  exact ⟨ho, ha⟩

end Sys2Proof.Machine
end

section
/-! PROOFS. The statements of memory (20_memory.md). -/

namespace Sys2Proof.Machine

/-! ### Address sums -/

/-- R31: an effective address is the exact signed sum modulo 65536. -/
theorem toNat_add_sext {n : Nat} (a : Word) (v : BitVec n) (h : n ≤ 16) :
    ((a + sext v).toNat : Int) = (a.toNat + v.toInt) % 65536 := by
  rw [← offsetBy_eq a v h, offsetBy, BitVec.toNat_ofInt]
  omega

/-- Settles O25: each effective address is a word plus a sign-extended field of at most 16 bits. -/
theorem addressSumsWrap : Obligations.AddressSumsWrap := fun s base off9 off11 off6 =>
  ⟨BitVec.toNat_add s.pc 1, toNat_add_sext s.pc off9 (by decide), toNat_add_sext s.pc off11 (by decide),
    toNat_add_sext (s.reg base) off6 (by decide)⟩

/-! ### Stores -/

/-- An instruction that stores does nothing but write the word (R110 to R112). -/
theorem exec_of_storesTo {i : Instr} {s : State} {a v : Word} (h : storesTo i s = some (a, v)) :
    exec i s = .next (s.memWrite a v) := by
  cases i with
  | st | sti | str => cases h; rfl
  | _ => cases h

theorem SameMemory.of_mem_eq {s t : State} (h : t.mem = s.mem) : SameMemory s t := fun a => by
  rw [State.memRead, h, State.memRead]

/-- An effect that neither stores nor raises an error leaves memory alone. -/
theorem Effect.sameMemory {i : Instr} {s t : State} (h : Effect i s t) (he : t.stopReason.isError = false)
    (hs : storesTo i s = none) : SameMemory s t := by
  cases h with
  | result | jump | call => exact .of_mem_eq rfl
  | store a v hst => rw [hs] at hst; cases hst
  | error e u herr => exact absurd he (by simp [herr])
  | delivered b u _ _ _ _ _ _ hm => exact .of_mem_eq hm
  | completed u _ _ _ _ _ hm => exact .of_mem_eq hm
  | unfinished p u _ _ _ _ hm => exact .of_mem_eq hm

/-- Settles O51: a store is its one write, and no other effect than an error touches memory. -/
theorem onlyStoresWriteMemory : Obligations.OnlyStoresWriteMemory := by
  intro i s t h he
  refine ⟨(exec_effect h).sameMemory he, fun a v hst => ?_⟩
  rw [exec_of_storesTo hst] at h
  cases h
  have hw := s.memWrite_writes a v
  exact ⟨hw.memory, hw.stored⟩

/-! ### Reading a stored word -/

/-- Settles O26: each load puts the word at its address in DR, and that is the word stored there. -/
theorem storedWordIsLoadedBack : Obligations.StoredWordIsLoadedBack := by
  intro i s t a v hst h dr base off9 off6 pc
  rw [exec_of_storesTo hst] at h
  cases h
  have loads (u : State) (hu : u.memRead a = v) : (u.setResult dr (u.memRead a)).reg dr = v :=
    (u.setResult_writes dr _).result.trans hu
  have hstored := (s.memWrite_writes a v).stored
  refine ⟨fun ha => ⟨_, rfl, ?_⟩, fun ha => ⟨_, rfl, ?_⟩, fun ha => ⟨_, rfl, ?_⟩⟩
  all_goals rw [ha]; exact loads _ hstored

/-- Settles O27: the store leaves the run state and the incremented pc, so the next step fetches the stored word. -/
theorem storeIsSeenByNextFetch : Obligations.StoreIsSeenByNextFetch := by
  intro s v hrun hst
  have hw := s.advance.memWrite_writes (s.pc + 1) v
  refine ⟨_, (step_of_running hrun).trans (exec_of_storesTo hst), hw.pc, hw.stored, ?_⟩
  rw [step_of_running (hw.control.runState.trans hrun)]
  have hfetch : (s.advance.memWrite (s.pc + 1) v).fetch = v := hw.stored
  have hpc : s.pc + 1 + 1 = s.pc + 2 := by bv_omega
  rw [hfetch, State.advance, hw.pc, State.advance_pc, hpc]
  rfl

end Sys2Proof.Machine
end

section
/-! PROOFS. The statements of encoding (30_encoding.md). -/

namespace Sys2Proof.Machine

/-! ### Sign extension -/

section

variable {n : Nat} (v : BitVec n)

/-- The low bits of a sign extension are the field. -/
theorem setWidth_sext (h : n ≤ 16) : (sext v).setWidth n = v := by
  ext k hk
  have hk16 : k < 16 := by omega
  simp [sext, BitVec.getElem_signExtend, hk, hk16]

theorem toNat_sext_of_msb_false (h : n ≤ 16) (hv : v.msb = false) : (sext v).toNat = v.toNat := by
  rw [sext, BitVec.signExtend_eq_setWidth_of_msb_false hv, BitVec.toNat_setWidth_of_le h]

/-- R52's mask, bit by bit: the field's own bits below bit n, and 1 from there to bit 15. -/
theorem toNat_sext_of_msb_true (hv : v.msb = true) :
    (sext v).toNat = (v.toNat ||| (0xFFFF <<< n)) &&& 0xFFFF := by
  refine Nat.eq_of_testBit_eq fun k => ?_
  have ones (j : Nat) : Nat.testBit 0xFFFF j = decide (j < 16) := Nat.testBit_two_pow_sub_one 16 j
  rw [BitVec.testBit_toNat, sext, BitVec.getLsbD_signExtend, hv, Nat.testBit_and, Nat.testBit_or,
    Nat.testBit_shiftLeft, BitVec.testBit_toNat, ones, ones]
  by_cases hk : k < n
  · have hlow : ¬ k ≥ n := by omega
    simp [hk, hlow, Bool.and_comm]
  · have hhigh : k ≥ n := by omega
    by_cases hk16 : k < 16
    · have hsub : k - n < 16 := by omega
      simp [hk, hhigh, hk16, hsub]
    · simp [hk16]

end

/-- Settles O6: the top bit chooses between the two readings, and the low bits of the result are the field again. -/
theorem sextReplicatesTopBit : Obligations.SextReplicatesTopBit := by
  intro n _ hn v
  refine ⟨?_, by rw [setWidth_sext v hn]⟩
  rw [BitVec.testBit_toNat, ← BitVec.msb_eq_getLsbD_last]
  split
  case isTrue hv => exact toNat_sext_of_msb_true v hv
  case isFalse hv => exact toNat_sext_of_msb_false v hn (Bool.eq_false_iff.mpr hv)

/-! ### Every step answers -/

/-- However its routine ends, a TRAP answers a next state. -/
theorem trapCall_next (r : State → RoutineResult) (s : State) : ∃ t, trapCall r s = .next t := by
  rcases trapCall_cases r s with ⟨_, _, e⟩ | ⟨_, _, _, e⟩ | ⟨_, _, _, e⟩ <;> exact ⟨_, e⟩

/-- Every instruction answers a next state: each meaning but TRAP's is one written out. -/
theorem exec_next (i : Instr) (s : State) : ∃ t, exec i s = .next t := by
  cases i with
  | trap v => exact trapCall_next (dispatch v) s
  | trapGetc => exact trapCall_next getcRoutine s
  | trapOut => exact trapCall_next outRoutine s
  | trapPuts => exact trapCall_next putsRoutine s
  | trapIn => exact trapCall_next inRoutine s
  | trapPutsp => exact trapCall_next putspRoutine s
  | trapHalt => exact trapCall_next haltRoutine s
  | _ => exact ⟨_, rfl⟩

/-- Settles O47: a halted machine answers itself, a running one what its instruction does. -/
theorem everyStepAnswersNext : Obligations.EveryStepAnswersNext := by
  intro s
  cases hs : s.runState with
  | halted => exact ⟨s, step_of_halted hs⟩
  | running => exact step_of_running hs ▸ exec_next (decodeWord s.fetch) s.advance

end Sys2Proof.Machine
end

section
/-! PROOFS. The statements of the step (40_cycle.md). -/

namespace Sys2Proof.Machine

/-- Settles O45: R70's guard, then the cycle. -/
theorem stepRunsDecodedInstruction : Obligations.StepRunsDecodedInstruction := fun _ =>
  ⟨step_of_running, step_of_halted⟩

/-! ### Runs that stay where they are -/

variable {s : State}

theorem run_of_step_self (h : step s = .next s) (n : Nat) : core.run n s = .next s := by
  induction n with
  | zero => rfl
  | succ n ih => exact (run_succ n h).trans ih

/-- Settles O46. -/
theorem haltedMachineStaysHalted : Obligations.HaltedMachineStaysHalted := fun _ n h =>
  run_of_step_self (step_of_halted h) n

/-! ### A branch to itself -/

theorem Flags.meets_all {f : Flags} (h : f.n = true ∨ f.z = true ∨ f.p = true) : f.meets true true true = true := by
  rcases h with h | h | h <;> simp [Flags.meets, h]

/-- The offset -1 takes back the increment of the pc (R72, R90). -/
theorem State.advance_pcRelative_neg_one (s : State) : s.advance.pcRelative 0x1FF#9 = s.pc := by
  have hback : sext 0x1FF#9 = (-1 : Word) := by decide
  rw [State.pcRelative, State.advance_pc, hback]
  exact add_neg_cancel_right s.pc 1

theorem exec_brSelf (h : s.flags.n = true ∨ s.flags.z = true ∨ s.flags.p = true) :
    exec (.br true true true 0x1FF#9) s.advance = .next s := by
  have htaken : s.advance.flags.meets true true true = true := Flags.meets_all h
  rw [exec, execBr, if_pos htaken, State.advance_pcRelative_neg_one]
  rfl

/-- Settles O14: the branch is taken back to its own address, and a step that changes nothing repeats. -/
theorem branchToSelfNeverEnds : Obligations.BranchToSelfNeverEnds := by
  intro s n hrun hword hflags
  have hfetch : s.fetch = 0x0FFF := hword
  have hdecode : decodeWord 0x0FFF = .br true true true 0x1FF#9 := by decide
  have hstep : step s = .next s := by rw [step_of_running hrun, hfetch, hdecode, exec_brSelf hflags]
  exact run_of_step_self hstep n

/-! ### A read that is never answered -/

theorem getcRoutine_of_no_answer (h : s.hostReads = []) : getcRoutine s = .unfinished .getcHeld s := by
  simp [getcRoutine, State.consoleRead, h]

/-- A TRAP whose routine has done nothing yet leaves only the progress mark: R7 and the pc are taken back (R75,
R151). -/
theorem State.suspend_advance_link (s : State) (p : Progress) :
    State.suspend s.advance s.advance.link p = { s with progress := p } := by
  have hpc : s.pc + 1 - 1 = s.pc := add_sub_cancel_right s.pc 1
  rw [State.suspend, State.advance_pc, hpc]
  rfl

theorem step_of_getc_unanswered (hrun : s.runState = .running) (hgetc : decodeWord s.fetch = .trapGetc)
    (hreads : s.hostReads = []) : step s = .next { s with progress := .getcHeld } := by
  have hheld : getcRoutine s.advance.link = .unfinished .getcHeld s.advance.link := getcRoutine_of_no_answer hreads
  rw [step_of_running hrun, hgetc, ← State.suspend_advance_link]
  exact trapCall_unfinished hheld

/-- Settles O32: the first step sets the mark, and the marked state is again a GETC without an answer, which a step
gives back as it is. -/
theorem unansweredGetcStaysHeld : Obligations.UnansweredGetcStaysHeld := by
  intro s n hrun hgetc hreads
  cases n with
  | zero => exact ⟨s, rfl, rfl⟩
  | succ n =>
    have hstep := step_of_getc_unanswered hrun hgetc hreads
    have hagain : step { s with progress := .getcHeld } = .next { s with progress := .getcHeld } :=
      step_of_getc_unanswered (s := { s with progress := .getcHeld }) hrun hgetc hreads
    exact ⟨_, (run_succ n hstep).trans (run_of_step_self hagain n), rfl⟩

end Sys2Proof.Machine
end

section
/-! PROOFS. The statements of the operate instructions (41_operate.md). -/

namespace Sys2Proof.Machine

/-! ### The operand fields -/

/-- A register field's number is the three bits from its low bit on (R51). -/
theorem names_regField (w : Word) (lo : Nat) : Names (regField lo w) w lo := by
  have hval : (regField lo w).val = (w.toNat >>> lo) % 8 := BitVec.extractLsb'_toNat lo 3 w
  rw [Names, hval, Nat.shiftRight_eq_div_pow]

/-- The operands of format OPR are the fields of the word; AND has ADD's. -/
theorem names_of_regFields {w : Word} {dr sr1 sr2 : Reg} (h : (Instr.addReg dr sr1 sr2).FieldsOf w) :
    w.getLsbD 5 = false ∧ Names dr w 9 ∧ Names sr1 w 6 ∧ Names sr2 w 0 := by
  obtain ⟨hmode, rfl, rfl, rfl⟩ := h
  exact ⟨hmode, names_regField w 9, names_regField w 6, names_regField w 0⟩

/-- The operands of format OPI are the fields of the word; AND has ADD's. -/
theorem names_of_immFields {w : Word} {dr sr1 : Reg} {imm5 : BitVec 5} (h : (Instr.addImm dr sr1 imm5).FieldsOf w) :
    w.getLsbD 5 = true ∧ Names dr w 9 ∧ Names sr1 w 6 ∧ imm5.toNat = w.toNat % 32 := by
  obtain ⟨hmode, rfl, rfl, rfl⟩ := h
  exact ⟨hmode, names_regField w 9, names_regField w 6, BitVec.extractLsb'_toNat 0 5 w⟩

/-! ### The results, as the spec's arithmetic and as the words the meanings compute -/

/-- R80: the signed sum with an immediate is the sum of the words. -/
theorem ofInt_toInt_add_imm (x : Word) (imm5 : BitVec 5) : BitVec.ofInt 16 (x.toInt + imm5.toInt) = x + sext imm5 := by
  rw [BitVec.ofInt_add, BitVec.ofInt_toInt, ofInt_toInt_eq_sext imm5 (by decide)]

theorem ofNat_toNat_and (x y : Word) : BitVec.ofNat 16 (x.toNat &&& y.toNat) = x &&& y := by
  rw [← BitVec.toNat_and, BitVec.ofNat_toNat, BitVec.setWidth_eq]

/-- R82: the complement of a word is 65535 minus it. -/
theorem ofNat_complement (x : Word) : BitVec.ofNat 16 (65535 - x.toNat) = ~~~x := by
  have hnot : (~~~x).toNat = 65535 - x.toNat := BitVec.toNat_not
  rw [← hnot, BitVec.ofNat_toNat, BitVec.setWidth_eq]

/-- An immediate that reads as a register's value is that word once extended. -/
theorem sext_eq_of_toInt_eq {x : Word} {imm5 : BitVec 5} (h : x.toInt = imm5.toInt) : sext imm5 = x :=
  BitVec.eq_of_toInt_eq ((toInt_sext imm5 (by decide)).trans h.symm)

/-- R83: the law, of words. -/
theorem add_not_add_one (x y : Word) : x + ~~~y + 1 = x - y := by
  rw [add_assoc, sub_eq_add_neg, BitVec.neg_eq_not_add]
  rfl

/-- A difference of signed readings is the difference of the words. -/
theorem ofInt_toInt_sub (x y : Word) : BitVec.ofInt 16 (x.toInt - y.toInt) = x - y := by
  rw [Int.sub_eq_add_neg, BitVec.ofInt_add, BitVec.ofInt_neg, BitVec.ofInt_toInt, BitVec.ofInt_toInt, sub_eq_add_neg]

/-! ### The statements -/

theorem writesResult_of_eq {dr : Reg} {v r : Word} (s : State) (h : v = r) : WritesResult dr v s (s.setResult dr r) :=
  h ▸ s.setResult_writes dr r

/-- Settles O8. -/
theorem addWritesSum : Obligations.AddWritesSum :=
  ⟨fun _ sr1 sr2 s => ⟨_, rfl, writesResult_of_eq s (BitVec.add_def (s.reg sr1) (s.reg sr2)).symm⟩,
    fun _ sr1 imm5 s => ⟨_, rfl, writesResult_of_eq s (ofInt_toInt_add_imm (s.reg sr1) imm5)⟩,
    fun _ _ _ _ h => names_of_regFields (decodeWord_fields_of_eq h),
    fun _ _ _ _ h => names_of_immFields (decodeWord_fields_of_eq h)⟩

/-- Settles O9. -/
theorem andWritesConjunction : Obligations.AndWritesConjunction :=
  ⟨fun _ sr1 sr2 s => ⟨_, rfl, writesResult_of_eq s (ofNat_toNat_and (s.reg sr1) (s.reg sr2))⟩,
    fun _ sr1 imm5 s =>
      ⟨_, rfl, writesResult_of_eq s (congrArg (s.reg sr1 &&& ·) (ofInt_toInt_eq_sext imm5 (by decide)))⟩,
    fun _ _ _ _ h => names_of_regFields (decodeWord_fields_of_eq (i := .andReg _ _ _) h),
    fun _ _ _ _ h => names_of_immFields (decodeWord_fields_of_eq (i := .andImm _ _ _) h)⟩

/-- Settles O10. -/
theorem notWritesComplement : Obligations.NotWritesComplement := by
  refine ⟨fun _ sr s => ⟨_, rfl, writesResult_of_eq s (ofNat_complement (s.reg sr))⟩, fun w dr sr h => ?_⟩
  obtain ⟨rfl, rfl⟩ : dr = regField 9 w ∧ sr = regField 6 w := decodeWord_fields_of_eq h
  exact ⟨names_regField w 9, names_regField w 6⟩

/-- Settles O11: the two forms of an instruction differ only in where the second operand comes from. -/
theorem immediateAndRegisterModesAgree : Obligations.ImmediateAndRegisterModesAgree := by
  intro dr sr1 sr2 imm5 s h
  have hoperand : sext imm5 = s.reg sr2 := sext_eq_of_toInt_eq h
  simp only [exec, execAddImm, execAddReg, execAndImm, execAndReg, hoperand, and_self]

/-- Settles O12, from O8 and O10: each instruction writes `d` alone, so `a` keeps its value until the sum is formed. -/
theorem subtractionIsAddNotPlusOne : Obligations.SubtractionIsAddNotPlusOne := by
  intro a b d s had
  obtain ⟨notWrites, -⟩ := notWritesComplement
  obtain ⟨addRegWrites, addImmWrites, -⟩ := addWritesSum
  obtain ⟨t, hnot, ht⟩ := notWrites d b s
  obtain ⟨u, hadd, hu⟩ := addRegWrites d a d t
  obtain ⟨v, hone, hv⟩ := addImmWrites d d 1 u
  have hta : t.reg a = s.reg a := ht.regs a (mt List.mem_singleton.mp had)
  have htd : t.reg d = ~~~(s.reg b) := ht.result.trans (ofNat_complement (s.reg b))
  have hud : u.reg d = s.reg a + ~~~(s.reg b) := by rw [hu.result, ← BitVec.add_def, hta, htd]
  have hresult : BitVec.ofInt 16 ((u.reg d).toInt + (1#5).toInt) = s.reg a - s.reg b := by
    have hsext : sext 1#5 = (1 : Word) := by decide
    rw [ofInt_toInt_add_imm, hud, hsext, add_not_add_one]
  have hvd : v.reg d = s.reg a - s.reg b := hv.result.trans hresult
  refine ⟨t, u, v, hnot, hadd, hone, ?_, ?_⟩
  · rw [hvd, BitVec.toNat_sub, Nat.add_comm]
  · rw [ofInt_toInt_sub, ← hresult]
    exact hv.flags

end Sys2Proof.Machine
end

section
/-! PROOFS. The statements of control transfer (42_control.md) about one instruction; the branch to itself stands with
the runs above. -/

namespace Sys2Proof.Machine

/-! ### BR -/

/-- R90: the condition, as the spec words it. -/
theorem Flags.meets_iff {f : Flags} {n z p : Bool} : f.meets n z p = true ↔
    n = true ∧ f.n = true ∨ z = true ∧ f.z = true ∨ p = true ∧ f.p = true := by
  simp only [Flags.meets, Bool.or_eq_true, Bool.and_eq_true, or_assoc]

/-- BR always writes the pc: when it is not taken, with the value the pc has (R58, R90). -/
theorem exec_br (n z p : Bool) (off : BitVec 9) (s : State) : exec (.br n z p off) s =
    .next (s.setPc (if s.flags.meets n z p then offsetBy s.pc off else s.pc)) := by
  rw [exec, execBr, offsetBy_eq s.pc off (by decide)]
  split <;> rfl

/-- Settles O13. -/
theorem brAddsOffsetWhenTestedFlagSet : Obligations.BrAddsOffsetWhenTestedFlagSet := by
  refine ⟨fun n z p off s => ⟨_, exec_br n z p off s, ?_⟩, fun w n z p off h => ?_⟩
  · simp only [Flags.meets_iff]
    exact s.setPc_transfers _
  · obtain ⟨hn, hz, hp, rfl⟩ : (Instr.br n z p off).FieldsOf w := decodeWord_fields_of_eq h
    exact ⟨hn, hz, hp, BitVec.extractLsb'_toNat 0 9 w⟩

/-! ### JMP -/

/-- Settles O15. -/
theorem jmpGoesToBase : Obligations.JmpGoesToBase := by
  refine ⟨fun base s => ⟨_, rfl, s.setPc_transfers (s.reg base)⟩, fun w base h => ?_⟩
  obtain rfl : base = regField 6 w := decodeWord_fields_of_eq h
  exact names_regField w 6

/-! ### JSR and JSRR -/

/-- An instruction that links and then sets the pc has the effect R93 and R94 ask for. -/
theorem call_links_and_transfers {i : Instr} {s : State} {target : Word}
    (h : exec i s = .next (s.link.setPc target)) :
    ∃ t, exec i s = .next t ∧ t.reg 7 = s.pc ∧ Transfers target [7] s t :=
  ⟨_, h, s.reg_setReg_self linkReg s.pc, s.link_setPc_transfers target⟩

theorem exec_jsr (off : BitVec 11) (s : State) : exec (.jsr off) s = .next (s.link.setPc (offsetBy s.pc off)) := by
  rw [offsetBy_eq s.pc off (by decide)]
  rfl

/-- D4, the default order: the base register is read after the link, which R7 then shows. -/
theorem exec_jsrr_of_linkFirst {s : State} (base : Reg) (h : s.params.jsrrBaseReadFirst = false) :
    exec (.jsrr base) s = .next (s.link.setPc (if base = 7 then s.pc else s.reg base)) := by
  have hread : s.link.reg base = if base = 7 then s.pc else s.reg base := s.reg_link base
  rw [← hread, exec, execJsrr, h]
  rfl

/-- D4, the other order: the base register is read before the link. -/
theorem exec_jsrr_of_baseFirst {s : State} (base : Reg) (h : s.params.jsrrBaseReadFirst = true) :
    exec (.jsrr base) s = .next (s.link.setPc (s.reg base)) := by
  rw [exec, execJsrr, h]
  rfl

/-- Settles O16. -/
theorem jsrLinksAndJumps : Obligations.JsrLinksAndJumps := by
  refine ⟨fun off s => call_links_and_transfers (exec_jsr off s), fun w off h => ?_⟩
  obtain ⟨hmode, rfl⟩ : (Instr.jsr off).FieldsOf w := decodeWord_fields_of_eq h
  exact ⟨hmode, BitVec.extractLsb'_toNat 0 11 w⟩

/-- Settles O17. -/
theorem jsrrLinksAndJumps : Obligations.JsrrLinksAndJumps := by
  refine ⟨fun base s h => call_links_and_transfers (exec_jsrr_of_linkFirst base h),
    fun base s h => call_links_and_transfers (exec_jsrr_of_baseFirst base h), fun w base h => ?_⟩
  obtain ⟨hmode, rfl⟩ : (Instr.jsrr base).FieldsOf w := decodeWord_fields_of_eq h
  exact ⟨hmode, names_regField w 6⟩

end Sys2Proof.Machine
end

section
/-! PROOFS. The statements of loads and address computation (43_load.md), and the sample words. -/

namespace Sys2Proof.Machine

/-! ### Sample words -/

/-- Settles O1: the words are closed terms, so each decoding is a computation. -/
theorem sampleWordsDecode : Obligations.SampleWordsDecode := by
  unfold Obligations.SampleWordsDecode
  decide

/-! ### The operand fields -/

/-- A register and PCoffset9 are the fields of the word; LDI, LEA, ST and STI have LD's. -/
theorem names_of_pcOffsetFields {w : Word} {r : Reg} {off : BitVec 9} (h : (Instr.ld r off).FieldsOf w) :
    Names r w 9 ∧ off.toNat = w.toNat % 512 := by
  obtain ⟨rfl, rfl⟩ := h
  exact ⟨names_regField w 9, BitVec.extractLsb'_toNat 0 9 w⟩

/-- A register, BaseR and offset6 are the fields of the word; STR has LDR's. -/
theorem names_of_baseOffsetFields {w : Word} {r base : Reg} {off : BitVec 6} (h : (Instr.ldr r base off).FieldsOf w) :
    Names r w 9 ∧ Names base w 6 ∧ off.toNat = w.toNat % 64 := by
  obtain ⟨rfl, rfl, rfl⟩ := h
  exact ⟨names_regField w 9, names_regField w 6, BitVec.extractLsb'_toNat 0 6 w⟩

/-! ### The effective addresses, as the spec's signed sums -/

section

variable (s : State)

theorem State.offsetBy_pc (off : BitVec 9) : offsetBy s.pc off = s.pcRelative off :=
  offsetBy_eq s.pc off (by decide)

theorem State.memRead_offsetBy_pc (off : BitVec 9) : s.memRead (offsetBy s.pc off) = s.indirect off :=
  congrArg s.memRead (s.offsetBy_pc off)

theorem State.offsetBy_base (base : Reg) (off : BitVec 6) : offsetBy (s.reg base) off = s.baseOffset base off :=
  offsetBy_eq (s.reg base) off (by decide)

end

/-! ### The statements -/

/-- Settles O18. -/
theorem ldLoadsPcRelative : Obligations.LdLoadsPcRelative :=
  ⟨fun _ off s => ⟨_, rfl, writesResult_of_eq s (s.memRead_offsetBy_pc off)⟩,
    fun _ _ _ h => names_of_pcOffsetFields (decodeWord_fields_of_eq h)⟩

/-- Settles O19: the word LD would load is the address LDI loads from. -/
theorem ldiDereferencesTwice : Obligations.LdiDereferencesTwice :=
  ⟨fun _ off s => ⟨_, rfl, writesResult_of_eq s (congrArg s.memRead (s.memRead_offsetBy_pc off))⟩,
    fun _ _ _ h => names_of_pcOffsetFields (decodeWord_fields_of_eq (i := .ldi _ _) h)⟩

/-- Settles O20. -/
theorem ldrLoadsBaseOffset : Obligations.LdrLoadsBaseOffset :=
  ⟨fun _ base off s => ⟨_, rfl, writesResult_of_eq s (congrArg s.memRead (s.offsetBy_base base off))⟩,
    fun _ _ _ _ h => names_of_baseOffsetFields (decodeWord_fields_of_eq h)⟩

/-- Settles O21. -/
theorem leaGivesAddress : Obligations.LeaGivesAddress :=
  ⟨fun _ off s => ⟨_, rfl, writesResult_of_eq s (s.offsetBy_pc off)⟩,
    fun _ _ _ h => names_of_pcOffsetFields (decodeWord_fields_of_eq (i := .lea _ _) h)⟩

end Sys2Proof.Machine
end

section
/-! PROOFS. The statements of stores (44_store.md): the addresses are the sums proved equal to the spec's for the loads,
and the operand fields are those of the loads. -/

namespace Sys2Proof.Machine

/-- The whole effect of an instruction that stores is its one memory write (R110 to R112). -/
theorem exec_writesMemory_of_storesTo {i : Instr} {s : State} {a v : Word} (h : storesTo i s = some (a, v)) :
    ∃ t, exec i s = .next t ∧ WritesMemory a v s t :=
  ⟨_, exec_of_storesTo h, s.memWrite_writes a v⟩

/-- Settles O22. -/
theorem stStoresPcRelative : Obligations.StStoresPcRelative :=
  ⟨fun _ off s => ⟨(s.offsetBy_pc off).symm, exec_writesMemory_of_storesTo rfl⟩,
    fun _ _ _ h => names_of_pcOffsetFields (decodeWord_fields_of_eq (i := .st _ _) h)⟩

/-- Settles O23: the pointer STI stores through is the word at ST's address. -/
theorem stiStoresThroughPointer : Obligations.StiStoresThroughPointer :=
  ⟨fun _ off s => ⟨(s.memRead_offsetBy_pc off).symm, exec_writesMemory_of_storesTo rfl⟩,
    fun _ _ _ h => names_of_pcOffsetFields (decodeWord_fields_of_eq (i := .sti _ _) h)⟩

/-- Settles O24: SR may be BaseR, since a store writes no register. -/
theorem strStoresBaseOffset : Obligations.StrStoresBaseOffset :=
  ⟨fun _ base off s => ⟨(s.offsetBy_base base off).symm, exec_writesMemory_of_storesTo rfl⟩,
    fun _ _ _ _ h => names_of_baseOffsetFields (decodeWord_fields_of_eq (i := .str _ _ _) h)⟩

end Sys2Proof.Machine
end

section
/-! PROOFS. How each way a TRAP can end meets the terms of Safety.lean: one lemma per ending, from what the routine
answers. -/

namespace Sys2Proof.Machine

/-! ### The console while a routine runs -/

/-- The state after a routine wrote `bs` and a read was then answered: `rest` is still to come, and `n` bytes more are
counted. -/
def State.served (s : State) (bs : List Byte) (rest : List ReadAnswer) (n : Nat) : State :=
  (s.wrote bs).tookAnswer rest n

section

variable {s : State} {b : Byte} {rest : List ReadAnswer}

theorem State.served_nil (s : State) (rest : List ReadAnswer) (n : Nat) : s.served [] rest n = s.tookAnswer rest n := by
  rw [State.served, State.wrote_nil]

/-- What is written after the read stands after what was written before it. -/
theorem State.served_wrote (s : State) (as bs : List Byte) (rest : List ReadAnswer) (n : Nat) :
    (s.served as rest n).wrote bs = s.served (as ++ bs) rest n :=
  congrArg (State.tookAnswer · rest n) (s.wrote_wrote as bs)

theorem State.consoleRead_of_byte (h : s.hostReads = .byte b :: rest) :
    s.consoleRead = .byte b (s.tookAnswer rest 1) := by
  rw [State.consoleRead, h]
  rfl

theorem State.consoleRead_of_failed (h : s.hostReads = .failed :: rest) :
    s.consoleRead = .failed (s.tookAnswer rest 0) := by
  rw [State.consoleRead, h]
  rfl

/-- R150: a host that has no byte yet has given no answer, or has said so. -/
theorem State.consoleRead_of_held (h : s.hostReads = [] ∧ rest = [] ∨ s.hostReads = .notYet :: rest) :
    s.consoleRead = .notYet (s.tookAnswer rest 0) := by
  rcases h with ⟨hnone, rfl⟩ | hnotYet
  · have hsame : s.tookAnswer [] 0 = s := congrArg (s.tookAnswer · 0) hnone.symm
    rw [State.consoleRead, hnone, hsame]
  · rw [State.consoleRead, hnotYet]
    rfl

end

/-! ### The endings -/

/-- A TRAP completed that wrote `bs` and gave no result: nothing changed but R7 and the output. -/
def TrapWrites (bs : List Byte) (s t : State) : Prop :=
  TrapCompletes [] s t ∧ t.flags = s.flags ∧ ConsoleAfter bs 0 s.hostReads s t ∧
    t.runState = s.runState ∧ t.stopReason = s.stopReason

/-- A TRAP completed that wrote `bs` and gave the byte `b`: R0 and the flags hold it. -/
def TrapDelivers (b : Byte) (bs : List Byte) (rest : List ReadAnswer) (s t : State) : Prop :=
  TrapCompletes [0] s t ∧ t.reg 0 = BitVec.ofNat 16 b.toNat ∧ t.flags.Reads (BitVec.ofNat 16 b.toNat) ∧
    ConsoleAfter bs 1 rest s t ∧ t.runState = s.runState ∧ t.stopReason = s.stopReason

/-- A routine that has touched no more than the console and the run state leaves R7 linked and the rest as it was. -/
theorem TrapCompletes.of_linked {s u : State} (hregs : u.regs = s.link.regs) (hpc : u.pc = s.pc) (hmem : u.mem = s.mem)
    (hparams : u.params = s.params) (hdraws : u.draws = s.draws) : TrapCompletes [] s u.trapReturn where
  link := (reg_of_regs_eq hregs 7).trans (s.reg_setReg_self linkReg s.pc)
  pc := hpc
  regs := fun r hr => (reg_of_regs_eq hregs r).trans (s.reg_setReg_ne linkReg r s.pc (mt List.mem_singleton.mpr hr))
  memory := .of_mem_eq hmem
  params := hparams
  draws := hdraws
  progress := rfl

/-- Delivering a byte writes R0 besides; R7 stays linked. -/
theorem TrapCompletes.deliver {s t : State} (h : TrapCompletes [] s t) (b : Byte) :
    TrapCompletes [0] s (t.deliver b) where
  link := (t.reg_setReg_ne trapReg 7 (zext b) (by decide)).trans h.link
  pc := h.pc
  regs := fun r hr => by
    obtain ⟨h7, h0⟩ : r ≠ 7 ∧ r ≠ 0 := by simpa using hr
    exact (t.reg_setReg_ne trapReg r (zext b) h0).trans (h.regs r (mt List.mem_singleton.mp h7))
  memory := h.memory
  params := h.params
  draws := h.draws
  progress := h.progress

theorem zext_eq_ofNat (b : Byte) : zext b = BitVec.ofNat 16 b.toNat := (BitVec.ofNat_toNat 16 b).symm

section

variable (s : State) (b : Byte) (bs : List Byte) (rest : List ReadAnswer)

theorem State.wrote_trapWrites : TrapWrites bs s (s.link.wrote bs).trapReturn :=
  ⟨.of_linked rfl rfl rfl rfl rfl, rfl, ⟨rfl, rfl, rfl, rfl⟩, rfl, rfl⟩

theorem State.served_trapDelivers : TrapDelivers b bs rest s ((s.link.served bs rest 1).deliver b).trapReturn := by
  have hlinked : TrapCompletes [] s (s.link.served bs rest 1).trapReturn := .of_linked rfl rfl rfl rfl rfl
  have hresult := (s.link.served bs rest 1).trapReturn.setResult_writes trapReg (zext b)
  rw [TrapDelivers, ← zext_eq_ofNat]
  exact ⟨hlinked.deliver b, hresult.result, hresult.flags, ⟨rfl, rfl, rfl, rfl⟩, rfl, rfl⟩

end

section

variable {r : State → RoutineResult} {s : State} {b : Byte} {bs : List Byte} {rest : List ReadAnswer}

theorem trapCall_writes (h : r s.link = .done (s.link.wrote bs)) :
    ∃ t, trapCall r s = .next t ∧ TrapWrites bs s t :=
  ⟨_, trapCall_done h, s.wrote_trapWrites bs⟩

theorem trapCall_delivers (h : r s.link = .done ((s.link.served bs rest 1).deliver b)) :
    ∃ t, trapCall r s = .next t ∧ TrapDelivers b bs rest s t :=
  ⟨_, trapCall_done h, s.served_trapDelivers b bs rest⟩

/-- A suspended TRAP gives the registers and the pc back, and keeps what it did to the console (R151). -/
theorem trapCall_holds {p : Progress} (h : r s.link = .unfinished p (s.link.served bs rest 0)) :
    ∃ t, trapCall r s = .next t ∧ TrapUnfinished p s t ∧ ConsoleAfter bs 0 rest s t :=
  ⟨_, trapCall_unfinished h, ⟨rfl, fun _ _ => rfl, rfl, .of_mem_eq rfl, rfl, rfl, rfl, rfl, rfl⟩,
    ⟨rfl, rfl, rfl, rfl⟩⟩

theorem trapCall_stops {e : StopReason} {n : Nat} (h : r s.link = .error e (s.link.served bs rest n)) :
    ∃ t, trapCall r s = .next t ∧ StopsWith e bs n s t :=
  ⟨_, trapCall_error h, rfl, rfl, rfl, rfl, rfl⟩

end

end Sys2Proof.Machine
end

section
/-! PROOFS. The statements of the trap dispatcher (45_trap.md R120, R121) and of the routines without a string: GETC,
OUT, IN and HALT. -/

namespace Sys2Proof.Machine

/-! ### Dispatch -/

/-- R55, D3: a word with opcode 0xF is a TRAP by its low eight bits. -/
theorem decodeWord_of_trapOpcode {w : Word} (h : w.extractLsb' 12 4 = 0xF) :
    decodeWord w = decodeTrap (w.extractLsb' 0 8) := by
  have hbit (k : Nat) (hk : k < 4) : w.getLsbD (12 + k) = (0xF : BitVec 4).getLsbD k := by
    rw [← h, BitVec.getLsbD_extractLsb', decide_eq_true hk, Bool.true_and]
  have h15 : w.getLsbD 15 = true := hbit 3 (by decide)
  have h14 : w.getLsbD 14 = true := hbit 2 (by decide)
  have h13 : w.getLsbD 13 = true := hbit 1 (by decide)
  have h12 : w.getLsbD 12 = true := hbit 0 (by decide)
  simp only [decodeWord, h15, h14, h13, h12]

/-- A row of the dispatch table: the words of an instruction are those with opcode 0xF and its vector. -/
theorem decodeWord_eq_iff_vector {i : Instr} {v : BitVec 8} {w : Word} (hdecode : decodeTrap v = i)
    (hfields : i.FieldsOf w → w.extractLsb' 0 8 = v) :
    decodeWord w = i ↔ w.extractLsb' 12 4 = 0xF ∧ w.extractLsb' 0 8 = v := by
  constructor
  · intro h
    have hop : i.opcode = 0xF := hdecode ▸ decodeTrap_opcode v
    exact ⟨by rw [← decodeWord_opcode, h, hop], hfields (decodeWord_fields_of_eq h)⟩
  · rintro ⟨hop, hvector⟩
    rw [decodeWord_of_trapOpcode hop, hvector, hdecode]

/-- A TRAP does what TRAP with its vector does, whichever constructor the vector decodes to: the decoder and the
dispatcher ask for the same six vectors. -/
theorem exec_decodeTrap (v : BitVec 8) (s : State) : exec (decodeTrap v) s = exec (.trap v) s := by
  unfold decodeTrap
  split_ifs <;> subst_vars <;> rfl

/-- Settles O28. -/
theorem trapWordsDispatchByVector : Obligations.TrapWordsDispatchByVector := by
  refine ⟨fun w => ⟨?_, ?_, ?_, ?_, ?_, ?_⟩, fun w s h => decodeWord_of_trapOpcode h ▸ exec_decodeTrap _ s⟩
  all_goals exact decodeWord_eq_iff_vector rfl id

/-! ### GETC -/

section

variable {s : State} {b : Byte} {rest : List ReadAnswer}

theorem getcRoutine_of_byte (h : s.hostReads = .byte b :: rest) :
    getcRoutine s = .done ((s.served [] rest 1).deliver b) := by
  rw [getcRoutine, State.consoleRead_of_byte h, State.served_nil]

theorem getcRoutine_of_failed (h : s.hostReads = .failed :: rest) :
    getcRoutine s = .error .ioReadError (s.served [] rest 0) := by
  rw [getcRoutine, State.consoleRead_of_failed h, State.served_nil]

theorem getcRoutine_of_held (h : s.hostReads = [] ∧ rest = [] ∨ s.hostReads = .notYet :: rest) :
    getcRoutine s = .unfinished .getcHeld (s.served [] rest 0) := by
  rw [getcRoutine, State.consoleRead_of_held h, State.served_nil]

end

/-- Settles O30. -/
theorem getcDeliversByte : Obligations.GetcDeliversByte := fun s _ _ h =>
  trapCall_delivers (getcRoutine_of_byte (s := s.link) h)

/-- Settles O31. -/
theorem getcHoldsWithoutByte : Obligations.GetcHoldsWithoutByte := fun s _ h =>
  trapCall_holds (getcRoutine_of_held (s := s.link) h)

/-- Settles O33. -/
theorem getcReadFailureHalts : Obligations.GetcReadFailureHalts := fun s _ h =>
  trapCall_stops (getcRoutine_of_failed (s := s.link) h)

/-! ### OUT -/

/-- The one byte PUTS writes for a word is the one OUT writes for R0. -/
theorem lowByte_eq_ofNat (w : Word) : lowByte w = BitVec.ofNat 8 (w.toNat % 256) :=
  List.head_eq_of_cons_eq (putsBytes_eq w)

/-- The link writes R7, so R0 is what it was before the TRAP. -/
theorem State.link_reg_zero (s : State) : s.link.reg 0 = s.reg 0 := s.reg_setReg_ne linkReg 0 s.pc (by decide)

/-- Settles O34: one byte is accepted, or the budget is used up. -/
theorem outWritesLowByte : Obligations.OutWritesLowByte := by
  refine ⟨fun s hacc => trapCall_writes ?_, fun s hbudget => trapCall_stops (rest := s.hostReads) ?_⟩
  · have hacc : s.link.accepts 1 = true := hacc
    rw [outRoutine, State.consoleWrite_eq, if_pos hacc, ← lowByte_eq_ofNat, ← s.link_reg_zero]
    rfl
  · have hbudget : s.link.writeBudget = some 0 := hbudget
    rw [State.served_nil, outRoutine, State.consoleWrite, hbudget]
    rfl

/-! ### IN -/

section

variable {s : State} {b : Byte} {rest : List ReadAnswer}

theorem inRoutine_of_byte (h : s.hostReads = .byte b :: rest) (hacc : s.accepts (s.promptLeft.length + 1) = true) :
    inRoutine s = .done ((s.served (s.promptLeft ++ [b]) rest 1).deliver b) := by
  have hprompt := State.accepts_mono hacc (Nat.le_succ _)
  have hecho : (s.served s.promptLeft rest 1).accepts 1 = true := (s.wrote_accepts _ 1 hprompt).trans hacc
  have hread : (s.wrote s.promptLeft).consoleRead = .byte b (s.served s.promptLeft rest 1) :=
    State.consoleRead_of_byte h
  simp only [inRoutine, s.consoleWriteAll_accepted _ hprompt, hread, State.consoleWrite_eq, if_pos hecho,
    State.served_wrote]

theorem inRoutine_of_echo_failed (h : s.hostReads = .byte b :: rest)
    (hbudget : s.writeBudget = some s.promptLeft.length) :
    inRoutine s = .error .ioWriteError (s.served s.promptLeft rest 1) := by
  have hprompt : s.accepts s.promptLeft.length = true := by simp [State.accepts, hbudget]
  have hecho : (s.served s.promptLeft rest 1).accepts 1 = false :=
    (s.wrote_accepts _ 1 hprompt).trans (by simp [State.accepts, hbudget])
  have hread : (s.wrote s.promptLeft).consoleRead = .byte b (s.served s.promptLeft rest 1) :=
    State.consoleRead_of_byte h
  simp [inRoutine, s.consoleWriteAll_accepted _ hprompt, hread, State.consoleWrite_eq, hecho]

theorem inRoutine_of_read_failed (h : s.hostReads = .failed :: rest) (hprompt : s.accepts s.promptLeft.length = true) :
    inRoutine s = .error .ioReadError (s.served s.promptLeft rest 0) := by
  have hread : (s.wrote s.promptLeft).consoleRead = .failed (s.served s.promptLeft rest 0) :=
    State.consoleRead_of_failed h
  simp only [inRoutine, s.consoleWriteAll_accepted _ hprompt, hread]

theorem inRoutine_of_held (h : s.hostReads = [] ∧ rest = [] ∨ s.hostReads = .notYet :: rest)
    (hprompt : s.accepts s.promptLeft.length = true) :
    inRoutine s = .unfinished .inHeld (s.served s.promptLeft rest 0) := by
  have hread : (s.wrote s.promptLeft).consoleRead = .notYet (s.served s.promptLeft rest 0) :=
    State.consoleRead_of_held h
  simp only [inRoutine, s.consoleWriteAll_accepted _ hprompt, hread]

theorem inRoutine_of_prompt_failed {k : Nat} (hbudget : s.writeBudget = some k) (hk : k < s.promptLeft.length) :
    inRoutine s = .error .ioWriteError (s.served (s.promptLeft.take k) s.hostReads 0) := by
  rw [inRoutine, s.consoleWriteAll_failed _ k hbudget hk]
  rfl

end

/-- Settles O39. -/
theorem inPromptsReadsAndEchoes : Obligations.InPromptsReadsAndEchoes := by
  intro s b rest prompt hprompt hread hacc
  obtain rfl : prompt = s.link.promptLeft := hprompt
  exact trapCall_delivers (inRoutine_of_byte (s := s.link) hread hacc)

/-- Settles O40. -/
theorem inHoldsAfterPrompt : Obligations.InHoldsAfterPrompt := by
  intro s rest prompt hprompt hread hacc
  obtain rfl : prompt = s.link.promptLeft := hprompt
  exact trapCall_holds (inRoutine_of_held (s := s.link) hread hacc)

/-- Settles O41. -/
theorem inErrorsComeInOrder : Obligations.InErrorsComeInOrder := by
  intro s rest prompt hprompt
  obtain rfl : prompt = s.link.promptLeft := hprompt
  exact ⟨fun k hbudget hk => trapCall_stops (inRoutine_of_prompt_failed (s := s.link) hbudget hk),
    fun hread hacc => trapCall_stops (inRoutine_of_read_failed (s := s.link) hread hacc),
    fun b hread hbudget => trapCall_stops (inRoutine_of_echo_failed (s := s.link) hread hbudget)⟩

/-! ### HALT -/

/-- Settles O42. -/
theorem haltTrapStops : Obligations.HaltTrapStops := fun s =>
  ⟨(s.link.halt .haltTrap).trapReturn, rfl, rfl, rfl, .of_linked rfl rfl rfl rfl rfl, rfl, rfl, rfl, rfl, rfl⟩

end Sys2Proof.Machine
end

section
/-! PROOFS. The statements of PUTS and PUTSP (45_trap.md R124, R126), each proved once for the text of a word, and what
a completed routine touches (R129). -/

namespace Sys2Proof.Machine

theorem exec_trapPuts (s : State) : exec .trapPuts s = trapCall (writeString putsText .putsUnended) s := by
  rw [← funext putsBytes_eq]
  rfl

theorem exec_trapPutsp (s : State) : exec .trapPutsp s = trapCall (writeString putspText .putspUnended) s := by
  rw [← funext putspBytes_eq]
  rfl

/-- The string is read from R0, which the link does not write. -/
theorem State.link_stringAtR0 (s : State) : s.link.stringAtR0 = s.stringAtR0 :=
  congrArg (scanString s.mem 65536) s.link_reg_zero

/-- PUTS writes one byte a word. -/
theorem length_putsText_wordsFrom (s : State) (a : Word) (k : Nat) :
    ((wordsFrom s a k).flatMap putsText).length = k := by
  simp [List.length_flatMap, putsText, wordsFrom, Function.comp_def]

/-! ### One TRAP -/

section

variable {s : State} {text : Word → List Byte} {p : Progress} {ws : List Word} {found : Bool}

theorem writeString_of_accepted (hs : s.stringAtR0 = (ws, found)) (hacc : s.accepts (ws.flatMap text).length = true) :
    writeString text p s =
      if found then .done (s.wrote (ws.flatMap text)) else .unfinished p (s.wrote (ws.flatMap text)) := by
  rw [writeString, hs, s.consoleWriteAll_accepted _ hacc]

theorem writeString_of_failed {j : Nat} (hs : s.stringAtR0 = (ws, found)) (hbudget : s.writeBudget = some j)
    (hj : j < (ws.flatMap text).length) :
    writeString text p s = .error .ioWriteError (s.wrote ((ws.flatMap text).take j)) := by
  rw [writeString, hs, s.consoleWriteAll_failed _ j hbudget hj]

theorem trapCall_writes_string {k : Nat} (hk : k < 65536) (hstr : StringOf s (s.reg 0) k)
    (hacc : s.accepts ((wordsFrom s (s.reg 0) k).flatMap text).length = true) :
    ∃ t, trapCall (writeString text p) s = .next t ∧ TrapWrites ((wordsFrom s (s.reg 0) k).flatMap text) s t :=
  trapCall_writes (writeString_of_accepted (s.link_stringAtR0.trans (s.stringAtR0_ended k hk hstr)) hacc)

theorem trapCall_stops_in_string {j : Nat} (hs : s.stringAtR0 = (ws, found)) (hbudget : s.writeBudget = some j)
    (hj : j < (ws.flatMap text).length) :
    ∃ t, trapCall (writeString text p) s = .next t ∧ StopsWith .ioWriteError ((ws.flatMap text).take j) 0 s t :=
  trapCall_stops (rest := s.hostReads) (writeString_of_failed (s.link_stringAtR0.trans hs) hbudget hj)

theorem trapCall_goes_on (hmem : ∀ a, s.memRead a ≠ 0)
    (hacc : s.accepts ((wordsFrom s (s.reg 0) 65536).flatMap text).length = true) :
    ∃ t, trapCall (writeString text p) s = .next t ∧ TrapUnfinished p s t ∧
      ConsoleAfter ((wordsFrom s (s.reg 0) 65536).flatMap text) 0 s.hostReads s t :=
  trapCall_holds (writeString_of_accepted (s.link_stringAtR0.trans (s.stringAtR0_unended hmem)) hacc)

end

/-- Settles O35. -/
theorem putsWritesString : Obligations.PutsWritesString := by
  intro s k hk hstr hacc
  rw [exec_trapPuts]
  exact trapCall_writes_string hk hstr (by rwa [length_putsText_wordsFrom])

/-- Settles O36. -/
theorem putspWritesString : Obligations.PutspWritesString := by
  intro s k hk hstr hacc
  rw [exec_trapPutsp]
  exact trapCall_writes_string hk hstr hacc

/-- Settles O37: with an end or without one, the string has the same words to write. -/
theorem stringWriteFailureHalts : Obligations.StringWriteFailureHalts := by
  intro s k j hstr hbudget
  obtain ⟨found, hs⟩ : ∃ found, s.stringAtR0 = (wordsFrom s (s.reg 0) k, found) := by
    rcases hstr with ⟨hk, hstr⟩ | ⟨rfl, hmem⟩
    · exact ⟨true, s.stringAtR0_ended k hk hstr⟩
    · exact ⟨false, s.stringAtR0_unended hmem⟩
  rw [exec_trapPuts, exec_trapPutsp]
  exact ⟨trapCall_stops_in_string hs hbudget, trapCall_stops_in_string hs hbudget⟩

/-- Settles O59. -/
theorem stringPassWithinBudgetGoesOn : Obligations.StringPassWithinBudgetGoesOn := by
  intro s hmem
  rw [exec_trapPuts, exec_trapPutsp]
  exact ⟨trapCall_goes_on hmem, trapCall_goes_on hmem⟩

/-! ### A string with no end, through any number of steps -/

section

variable {i : Instr} {text : Word → List Byte} {p : Progress} {s : State}

/-- One pass over memory with no zero word leaves the machine at the same TRAP, but for the mark and the output. -/
theorem step_of_unended (hexec : ∀ s, exec i s = trapCall (writeString text p) s) (hrun : s.runState = .running)
    (hbudget : s.writeBudget = none) (hmem : ∀ a, s.memRead a ≠ 0) (hi : decodeWord s.fetch = i) :
    step s = .next
      { s with progress := p, out := s.out ++ (wordsFrom s (s.reg 0) 65536).flatMap text } := by
  have hs : s.advance.link.stringAtR0 = (wordsFrom s (s.reg 0) 65536, false) :=
    s.advance.link_stringAtR0.trans (s.advance.stringAtR0_unended hmem)
  have hacc (n : Nat) : s.advance.link.accepts n = true := by simp [State.accepts, hbudget]
  have hpass := trapCall_unfinished (r := writeString text p) (writeString_of_accepted hs (hacc _))
  rw [step_of_running hrun, hi, hexec, hpass]
  generalize (wordsFrom s (s.reg 0) 65536).flatMap text = bs
  have hback : State.suspend s.advance (s.advance.link.wrote bs) p = State.wrote { s with progress := p } bs :=
    congrArg (State.wrote · bs) (s.suspend_advance_link p)
  rw [hback, State.wrote, hbudget]
  rfl

theorem run_of_unended (hexec : ∀ s, exec i s = trapCall (writeString text p) s) (hrun : s.runState = .running)
    (hbudget : s.writeBudget = none) (hmem : ∀ a, s.memRead a ≠ 0) (hi : decodeWord s.fetch = i) (n : Nat) :
    ∃ t, core.run n s = .next t ∧ t = { s with
      progress := t.progress
      out := s.out ++ (List.replicate n ((wordsFrom s (s.reg 0) 65536).flatMap text)).flatten } := by
  induction n generalizing s with
  | zero => exact ⟨s, rfl, by rw [List.replicate_zero, List.flatten_nil, List.append_nil]⟩
  | succ n ih =>
    have hstep := step_of_unended hexec hrun hbudget hmem hi
    obtain ⟨t, hrest, ht⟩ := ih (s := { s with
      progress := p, out := s.out ++ (wordsFrom s (s.reg 0) 65536).flatMap text }) hrun hbudget hmem hi
    refine ⟨t, (run_succ n hstep).trans hrest, ?_⟩
    rw [List.replicate_succ, List.flatten_cons, ← List.append_assoc]
    exact ht

end

/-- Settles O38. -/
theorem unendedStringIsWrittenForever : Obligations.UnendedStringIsWrittenForever := fun _ n hrun hbudget hmem =>
  ⟨fun hi => run_of_unended exec_trapPuts hrun hbudget hmem hi n,
    fun hi => run_of_unended exec_trapPutsp hrun hbudget hmem hi n⟩

/-! ### What a completed routine touches (R129) -/

section

variable {s t : State}

theorem getc_delivers_of_completed (h : trapCall getcRoutine s = .next t) (he : t.stopReason.isError = false)
    (hp : t.progress = .idle) : ∃ b rest, TrapDelivers b [] rest s t := by
  rcases getcRoutine_cases s.link with ⟨rest, -, -, e⟩ | ⟨rest, -, e⟩ | ⟨b, rest, -, e⟩
  · rw [trapCall_unfinished e] at h; cases h; cases hp
  · rw [trapCall_error e] at h; cases h; cases he
  · rw [← State.served_nil] at e
    rw [trapCall_done e] at h; cases h
    exact ⟨b, rest, s.served_trapDelivers b [] rest⟩

theorem in_delivers_of_completed (h : trapCall inRoutine s = .next t) (he : t.stopReason.isError = false)
    (hp : t.progress = .idle) : ∃ b bs rest, TrapDelivers b bs rest s t := by
  rcases inRoutine_cases s.link with
    ⟨k, -, -, e⟩ | ⟨-, ⟨rest, -, -, e⟩ | ⟨rest, -, e⟩ | ⟨b, rest, -, ⟨-, e⟩ | ⟨-, e⟩⟩⟩
  · rw [trapCall_error e] at h; cases h; cases he
  · rw [trapCall_unfinished e] at h; cases h; cases hp
  · rw [trapCall_error e] at h; cases h; cases he
  · rw [trapCall_error e] at h; cases h; cases he
  · rw [← State.served, State.served_wrote] at e
    rw [trapCall_done e] at h; cases h
    exact ⟨b, _, rest, s.served_trapDelivers b _ rest⟩

theorem out_writes_of_completed (h : trapCall outRoutine s = .next t) (he : t.stopReason.isError = false) :
    ∃ bs, TrapWrites bs s t := by
  rcases outRoutine_cases s.link with ⟨-, e⟩ | ⟨-, e⟩
  · rw [trapCall_done e] at h; cases h
    exact ⟨_, s.wrote_trapWrites _⟩
  · rw [trapCall_error e] at h; cases h; cases he

theorem string_writes_of_completed {text : Word → List Byte} {p : Progress} (hne : p ≠ .idle)
    (h : trapCall (writeString text p) s = .next t) (he : t.stopReason.isError = false) (hp : t.progress = .idle) :
    ∃ bs, TrapWrites bs s t := by
  rcases writeString_cases text p s.link with ⟨-, e⟩ | ⟨k, -, -, e⟩
  · cases hfound : s.link.stringAtR0.2 with
    | false =>
      rw [hfound, if_neg Bool.false_ne_true] at e
      rw [trapCall_unfinished e] at h; cases h; exact absurd hp hne
    | true =>
      rw [hfound, if_pos rfl] at e
      rw [trapCall_done e] at h; cases h
      exact ⟨_, s.wrote_trapWrites _⟩
  · rw [trapCall_error e] at h; cases h; cases he

end

theorem TrapCompletes.sameRegsBut_zero_seven {s t : State} (h : TrapCompletes [0] s t) : SameRegsBut [0, 7] s t :=
  fun r hr => h.regs r (mt (List.Perm.swap 0 7 []).mem_iff.mp hr)

/-- Settles O43: a completed routine has written or has delivered, and HALT is O42. -/
theorem trapRoutinesTouchOnlyListedState : Obligations.TrapRoutinesTouchOnlyListedState := by
  intro i s t h he hp
  refine ⟨?_, ?_, fun hi => ?_, ?_⟩
  · rintro rfl
    obtain ⟨b, rest, hc, -, -, hconsole, hrun, hstop⟩ := getc_delivers_of_completed h he hp
    exact ⟨hc.sameRegsBut_zero_seven, hc.memory, hc.pc, hconsole.out.trans (List.append_nil _), hrun, hstop⟩
  · rintro rfl
    obtain ⟨b, bs, rest, hc, -, -, -, hrun, hstop⟩ := in_delivers_of_completed h he hp
    exact ⟨hc.sameRegsBut_zero_seven, hc.memory, hc.pc, hrun, hstop⟩
  · have hwrites : ∃ bs, TrapWrites bs s t := by
      rcases hi with rfl | rfl | rfl
      · exact out_writes_of_completed h he
      · exact string_writes_of_completed (p := .putsUnended) (by decide) h he hp
      · exact string_writes_of_completed (p := .putspUnended) (by decide) h he hp
    obtain ⟨bs, hc, hflags, hconsole, hrun, hstop⟩ := hwrites
    exact ⟨hc.regs, hc.memory, hc.pc, hflags, hconsole.inConsumed, hconsole.hostReads, hrun, hstop⟩
  · rintro rfl
    obtain ⟨u, hu, -, -, hc, hflags, hconsole⟩ := haltTrapStops s
    obtain rfl : t = u := Host.Outcome.next.inj (h.symm.trans hu)
    exact ⟨hc.regs, hc.memory, hc.pc, hflags, hconsole⟩

end Sys2Proof.Machine
end

section
/-! PROOFS. The statements of the decode errors (60_exceptions.md R142, R143). -/

namespace Sys2Proof.Machine

theorem definedVector_eq_false_iff (v : BitVec 8) :
    definedVector v = false ↔ v.toNat < 0x20 ∨ 0x25 < v.toNat := by
  rw [definedVector, decide_eq_false_iff_not]
  omega

/-- R121, R143: a vector without a routine is a decode error, before any effect on the console. -/
theorem dispatch_of_undefined {v : BitVec 8} (hv : definedVector v = false) :
    dispatch v = .error (.undefinedTrapVector v) := by
  rcases dispatch_cases v with ⟨rfl, -⟩ | ⟨rfl, -⟩ | ⟨rfl, -⟩ | ⟨rfl, -⟩ | ⟨rfl, -⟩ | ⟨rfl, -⟩ | ⟨-, hdispatch⟩
  case inr.inr.inr.inr.inr.inr => exact hdispatch
  all_goals exact absurd hv (by decide)

theorem exec_trap_stops_of_undefined {v : BitVec 8} (hv : definedVector v = false) (s : State) :
    ∃ t, exec (.trap v) s = .next t ∧ StopsWith (.undefinedTrapVector v) [] 0 s t :=
  trapCall_stops (rest := s.hostReads) (by rw [State.served_nil, dispatch_of_undefined hv]; rfl)

/-- The decoder gives the general TRAP only for a vector without a routine. -/
theorem definedVector_of_decodeWord_trap {w : Word} {v : BitVec 8} (h : decodeWord w = .trap v) :
    definedVector v = false := by
  have hwf : (Instr.trap v).wf = true := h ▸ decodeWord_wf w
  simpa [Instr.wf] using hwf

/-- Settles O29: the vectors outside the table are those the dispatcher has no routine for. -/
theorem undefinedVectorHalts : Obligations.UndefinedVectorHalts := by
  refine ⟨fun v s hv => exec_trap_stops_of_undefined ((definedVector_eq_false_iff v).mpr hv) s, fun w v h => ⟨?_, ?_⟩⟩
  · obtain rfl : v = w.extractLsb' 0 8 := decodeWord_fields_of_eq (i := .trap v) h
    exact BitVec.extractLsb'_toNat 0 8 w
  · exact (definedVector_eq_false_iff v).mp (definedVector_of_decodeWord_trap h)

/-- Settles O44: a reserved opcode is nothing but the error it raises. -/
theorem reservedOpcodesHalt : Obligations.ReservedOpcodesHalt := fun s =>
  ⟨⟨_, rfl, s.raise_stops (.reservedOpcode 0x8)⟩, ⟨_, rfl, s.raise_stops (.reservedOpcode 0xD)⟩⟩

end Sys2Proof.Machine
end

section
/-! PROOFS. The statement of the launch (70_reset_and_hazards.md R160, R161). -/

namespace Sys2Proof.Machine

/-- R161: at distance `b - a` from the image's first address stands the image's word of that index; past the image,
memory is as before. Holds across the wrap at 0xFFFF, as long as no address is written twice. -/
theorem Memory.read_loadImage (m : Memory) (a b : Word) (ws : List Word) (hlen : ws.length ≤ 65536) :
    (m.loadImage a ws).read b = (ws[(b - a).toNat]?).getD (m.read b) := by
  induction ws generalizing m a with
  | nil => rfl
  | cons w rest ih =>
    rw [List.length_cons] at hlen
    rw [Memory.loadImage, ih _ _ (by omega)]
    by_cases hb : b = a
    · subst hb
      have hlast : rest.length ≤ (b - (b + 1)).toNat := by bv_omega
      rw [List.getElem?_eq_none hlast]
      simp
    · have hnext : (b - a).toNat = (b - (a + 1)).toNat + 1 := by bv_omega
      rw [Memory.read_write_ne _ _ _ _ hb, hnext, List.getElem?_cons_succ]

/-- The state a launch starts from once the loader has accepted the image. -/
theorem launch_of_fits {l : Launch} (hfits : l.image.length ≤ 65536 - l.entryAddress.toNat) :
    launch l = .next { State.reset with
      regs := l.resetGpr
      pc := l.entryAddress
      flags := Flags.ofReset l.resetFlags
      mem := Memory.loadImage [] l.entryAddress l.image
      params := l.params } := if_pos hfits

theorem launch_of_oversized {l : Launch} (hbig : 65536 - l.entryAddress.toNat < l.image.length) :
    launch l = .fault .oversizedImage := if_neg (Nat.not_le.mpr hbig)

/-- Settles O55: an image that fits does not wrap, so an address's distance from the entry address is its index in the
image. -/
theorem launchPlacesImage : Obligations.LaunchPlacesImage := by
  refine ⟨fun l hfits => ⟨_, launch_of_fits hfits, rfl, rfl, rfl, rfl, rfl, rfl, rfl, rfl, fun i w hi => ?_,
    fun a ha => ?_⟩, fun _ => launch_of_oversized⟩
  all_goals rw [State.memRead, Memory.read_loadImage _ _ _ _ (by omega)]
  · have hlt : i < l.image.length := (List.getElem?_eq_some_iff.mp hi).1
    have hindex : (BitVec.ofNat 16 (l.entryAddress.toNat + i) - l.entryAddress).toNat = i := by bv_omega
    rw [hindex, hi, Option.getD_some]
  · have houtside : l.image.length ≤ (a - l.entryAddress).toNat := by bv_omega
    rw [List.getElem?_eq_none houtside]
    rfl

end Sys2Proof.Machine
end

section
/-! SUPPORT. The word an instruction is read from (30_encoding.md R51 to R57): a word decodes to `i` exactly when `i` is
well-formed and the word carries its opcode and its fields; the encoder's word carries them; and the fields lie on
exactly the bits that are not listed as unread. -/

namespace Sys2Proof

/-! ### What the decoder answers -/

/-- The opcode field of a word, bit by bit, as the decoder asks for it. -/
theorem bits_of_opcode {w : Word} {op : BitVec 4} (h : w.extractLsb' 12 4 = op) :
    w.getLsbD 15 = op.getLsbD 3 ∧ w.getLsbD 14 = op.getLsbD 2 ∧ w.getLsbD 13 = op.getLsbD 1 ∧
      w.getLsbD 12 = op.getLsbD 0 := by
  subst h
  simp

theorem decodeTrap_of_undefined {v : BitVec 8} (hv : definedVector v = false) : decodeTrap v = .trap v := by
  unfold decodeTrap
  split_ifs <;> simp_all [definedVector]

/-- The converse of `decodeWord_opcode` and `decodeWord_fields`: nothing else of the word is read. -/
theorem decodeWord_of_fields {w : Word} {i : Instr} (hwf : i.wf = true) (hop : w.extractLsb' 12 4 = i.opcode)
    (hfields : i.FieldsOf w) : decodeWord w = i := by
  obtain ⟨h15, h14, h13, h12⟩ := bits_of_opcode hop
  rw [decodeWord, h15, h14, h13, h12]
  cases i
  all_goals simp only [Instr.opcode, BitVec.reduceGetLsb]
  case addReg | andReg | addImm | andImm =>
    obtain ⟨hmode, rfl, rfl, rfl⟩ := hfields
    rw [hmode]; rfl
  case jsr | jsrr =>
    obtain ⟨hmode, rfl⟩ := hfields
    rw [hmode]; rfl
  case br => obtain ⟨rfl, rfl, rfl, rfl⟩ := hfields; rfl
  case ldr | str => obtain ⟨rfl, rfl, rfl⟩ := hfields; rfl
  case ld | st | ldi | sti | lea | not => obtain ⟨rfl, rfl⟩ := hfields; rfl
  case jmp => obtain rfl := hfields; rfl
  case trap v =>
    obtain rfl := hfields
    exact decodeTrap_of_undefined (by simpa [Instr.wf] using hwf)
  case trapGetc | trapOut | trapPuts | trapIn | trapPutsp | trapHalt => exact congrArg decodeTrap hfields

/-- What the decoder answers, said once. -/
theorem decodeWord_eq_iff {w : Word} {i : Instr} :
    decodeWord w = i ↔ i.wf = true ∧ w.extractLsb' 12 4 = i.opcode ∧ i.FieldsOf w := by
  constructor
  · rintro rfl
    exact ⟨decodeWord_wf w, (decodeWord_opcode w).symm, decodeWord_fields w⟩
  · rintro ⟨hwf, hop, hfields⟩
    exact decodeWord_of_fields hwf hop hfields

/-! ### Where the encoder writes -/

theorem getLsbD_atBit_of_outside {n lo k : Nat} (v : BitVec n) (h : k < lo ∨ lo + n ≤ k) :
    (atBit lo v).getLsbD k = false := by
  rw [getLsbD_atBit]
  rcases h with h | h
  · simp [Nat.not_le.mpr h]
  · simp [BitVec.getLsbD_of_ge v (k - lo) (by omega)]

theorem getLsbD_atBit_flag {lo : Nat} (b : BitVec 1) (h : lo < 16) : (atBit lo b).getLsbD lo = b.getLsbD 0 := by
  simp only [getLsbD_atBit, h, le_refl, decide_true, Bool.true_and, Nat.sub_self]

theorem extract_atBit_same {n lo : Nat} (v : BitVec n) (h : lo + n ≤ 16) : (atBit lo v).extractLsb' lo n = v := by
  refine extract_eq_of_bits fun k hk => ?_
  have hin : lo + k < 16 := by omega
  rw [getLsbD_atBit, decide_eq_true (Nat.le_add_right lo k), decide_eq_true hin, Nat.add_sub_cancel_left]
  rfl

theorem extract_atBit_of_disjoint {n m lo lo' : Nat} (v : BitVec n) (h : lo' + m ≤ lo ∨ lo + n ≤ lo') :
    (atBit lo v).extractLsb' lo' m = 0#m := by
  refine extract_eq_of_bits fun k hk => ?_
  rw [getLsbD_atBit_of_outside v (by omega), BitVec.getLsbD_zero]

theorem encode_opcode (i : Instr) : (encode i).extractLsb' 12 4 = i.opcode := by
  cases i
  case reserved8 | reservedD | trapGetc | trapOut | trapPuts | trapIn | trapPutsp | trapHalt => rfl
  all_goals
    simp (disch := decide) only [encode, encodeTrap, BitVec.extractLsb'_or, extract_atBit_same,
      extract_atBit_of_disjoint, BitVec.or_zero]
    rfl

theorem encode_fields (i : Instr) : i.FieldsOf (encode i) := by
  cases i
  case reserved8 | reservedD => trivial
  case trapGetc | trapOut | trapPuts | trapIn | trapPutsp | trapHalt => rfl
  all_goals
    simp (disch := decide) only [Instr.FieldsOf, encode, encodeTrap, regField, regBits, BitVec.extractLsb'_or,
      extract_atBit_same, extract_atBit_of_disjoint, BitVec.getLsbD_or, getLsbD_atBit_flag, getLsbD_atBit_of_outside,
      BitVec.or_zero, BitVec.zero_or, Bool.or_false, Bool.false_or, BitVec.getLsbD_ofBool, BitVec.reduceGetLsb,
      decide_true, Bool.true_and, and_self]

/-! ### The bits that are read -/

/-- The operand fields of an instruction's format, each by its low bit and its width (30_encoding.md R51, R53). -/
def Instr.operandFields : Instr → List (Nat × Nat)
  | .br _ _ _ _ => [(11, 1), (10, 1), (9, 1), (0, 9)]
  | .addReg _ _ _ | .andReg _ _ _ => [(5, 1), (9, 3), (6, 3), (0, 3)]
  | .addImm _ _ _ | .andImm _ _ _ => [(5, 1), (9, 3), (6, 3), (0, 5)]
  | .ld _ _ | .ldi _ _ | .lea _ _ | .st _ _ | .sti _ _ => [(9, 3), (0, 9)]
  | .ldr _ _ _ | .str _ _ _ => [(9, 3), (6, 3), (0, 6)]
  | .jsr _ => [(11, 1), (0, 11)]
  | .jsrr _ => [(11, 1), (6, 3)]
  | .not _ _ => [(9, 3), (6, 3)]
  | .jmp _ => [(6, 3)]
  | .reserved8 | .reservedD => []
  | .trap _ | .trapGetc | .trapOut | .trapPuts | .trapIn | .trapPutsp | .trapHalt => [(0, 8)]

theorem Instr.operandFields_in_word {i : Instr} : ∀ f ∈ i.operandFields, f.1 + f.2 ≤ 16 := by
  cases i <;> simp [Instr.operandFields]

/-- The opcode field and the operand fields cover exactly the bits R57 does not list. -/
theorem unreadBit_eq_false_iff (i : Instr) {k : Nat} (hk : k < 16) :
    i.unreadBit k = false ↔ 12 ≤ k ∨ ∃ f ∈ i.operandFields, f.1 ≤ k ∧ k < f.1 + f.2 := by
  cases i <;> simp [Instr.unreadBit, Instr.operandFields] <;> omega

theorem extract_eq_extract_iff {v w : Word} {lo n : Nat} :
    v.extractLsb' lo n = w.extractLsb' lo n ↔ ∀ k, lo ≤ k → k < lo + n → v.getLsbD k = w.getLsbD k := by
  constructor
  · intro h k hlo hhi
    have hbit := congrArg (·.getLsbD (k - lo)) h
    have hin : k - lo < n := by omega
    simpa [BitVec.getLsbD_extractLsb', hin, hlo] using hbit
  · intro h
    refine extract_eq_of_bits fun k hk => ?_
    rw [h _ (by omega) (by omega), BitVec.getLsbD_extractLsb', decide_eq_true hk, Bool.true_and]

/-- Two words have the same opcode and the same operand fields for `i`. -/
def Instr.SameFields (i : Instr) (v w : Word) : Prop :=
  v.extractLsb' 12 4 = w.extractLsb' 12 4 ∧ ∀ f ∈ i.operandFields, v.extractLsb' f.1 f.2 = w.extractLsb' f.1 f.2

theorem sameFields_iff_readBits {i : Instr} {v w : Word} :
    i.SameFields v w ↔ ∀ k, k < 16 → i.unreadBit k = false → v.getLsbD k = w.getLsbD k := by
  simp only [Instr.SameFields, extract_eq_extract_iff]
  constructor
  · rintro ⟨hop, hfields⟩ k hk hread
    rcases (unreadBit_eq_false_iff i hk).mp hread with hhigh | ⟨f, hf, hlo, hhi⟩
    · exact hop k hhigh hk
    · exact hfields f hf k hlo hhi
  · intro h
    refine ⟨fun k hlo hhi => h k hhi ((unreadBit_eq_false_iff i hhi).mpr (.inl hlo)), fun f hf k hlo hhi => ?_⟩
    have hk : k < 16 := hhi.trans_le (Instr.operandFields_in_word f hf)
    exact h k hk ((unreadBit_eq_false_iff i hk).mpr (.inr ⟨f, hf, hlo, hhi⟩))

theorem regField_eq_regField_iff {v w : Word} {lo : Nat} :
    regField lo v = regField lo w ↔ v.extractLsb' lo 3 = w.extractLsb' lo 3 := BitVec.toFin_inj

theorem extract_flag_eq_iff {v w : Word} {k : Nat} :
    v.extractLsb' k 1 = w.extractLsb' k 1 ↔ v.getLsbD k = w.getLsbD k := by
  rw [extract_eq_extract_iff]
  exact ⟨fun h => h k le_rfl (Nat.lt_succ_self k), fun h j hlo hhi => (show j = k by omega) ▸ h⟩

/-- Of a word that carries the fields of `i`, the words that carry them too are those with the same operand fields. -/
theorem fieldsOf_iff_of_fieldsOf {i : Instr} {v w : Word} (hw : i.FieldsOf w) :
    i.FieldsOf v ↔ ∀ f ∈ i.operandFields, v.extractLsb' f.1 f.2 = w.extractLsb' f.1 f.2 := by
  cases i
  -- `hw` writes each operand of `i` as a field of `w`
  all_goals
    simp only [Instr.FieldsOf] at hw
    simp only [Instr.FieldsOf, Instr.operandFields, List.forall_mem_cons, List.not_mem_nil, false_implies,
      implies_true, and_true, extract_flag_eq_iff, hw, regField_eq_regField_iff, eq_comm]

/-- Two words decode alike exactly when they agree on the bits that are read. -/
theorem decodeWord_eq_decodeWord_iff {v w : Word} : decodeWord v = decodeWord w ↔
    ∀ k, k < 16 → (decodeWord w).unreadBit k = false → v.getLsbD k = w.getLsbD k := by
  rw [← sameFields_iff_readBits, decodeWord_eq_iff, fieldsOf_iff_of_fieldsOf (decodeWord_fields w), decodeWord_opcode,
    Instr.SameFields, and_iff_right (decodeWord_wf w)]

end Sys2Proof
end

section
/-! PROOFS. The statements of the encoding (30_encoding.md). -/

namespace Sys2Proof

/-- Settles O2: the encoder's word carries the opcode and the fields, and they determine what it decodes to. -/
theorem decodeInvertsEncode : Obligations.DecodeInvertsEncode := fun i hwf =>
  decodeWord_of_fields hwf (encode_opcode i) (encode_fields i)

/-- Settles O3: the encoder's word of what `w` decodes to decodes like `w`, so it agrees with `w` on the read bits. -/
theorem encodeKeepsReadBits : Obligations.EncodeKeepsReadBits := fun w =>
  ⟨decodeWord_wf w, decodeWord_eq_decodeWord_iff.mp (decodeInvertsEncode _ (decodeWord_wf w))⟩

/-- Settles O4: agreement on the read bits is what decoding alike means. -/
theorem unreadBitsNeverMatter : Obligations.UnreadBitsNeverMatter := fun _ _ => decodeWord_eq_decodeWord_iff.mpr

/-- A reserved opcode has no fields: the opcode alone makes the instruction. -/
theorem decodeWord_eq_iff_opcode {i : Instr} (hwf : i.wf = true) (hfields : ∀ w, i.FieldsOf w) (w : Word) :
    decodeWord w = i ↔ w.toNat / 4096 = i.opcode.toNat := by
  have hfield : (w.extractLsb' 12 4).toNat = w.toNat / 4096 := by
    rw [BitVec.extractLsb'_toNat, Nat.shiftRight_eq_div_pow]
    omega
  rw [decodeWord_eq_iff, and_iff_right hwf, and_iff_left (hfields w), ← BitVec.toNat_inj, hfield]

/-- Settles O5. -/
theorem opcodeFieldSelectsInstruction : Obligations.OpcodeFieldSelectsInstruction := fun w =>
  ⟨decodeWord_opcode w, decodeWord_eq_iff_opcode (i := .reserved8) rfl (fun _ => trivial) w,
    decodeWord_eq_iff_opcode (i := .reservedD) rfl (fun _ => trivial) w⟩

end Sys2Proof
end
